-- ==== Sys2Proof/Word.lean ====
section
/-! DEFINITION. Sys2Proof/Word.lean: the machine's words and instruction fields (00_scope.md R8, R10, R11). -/

namespace Sys2Proof

/-- The Word: "32-bit unsigned integer; the unit of storage, transfer, and the ALU's domain/range" (R8). -/
abbrev Word := BitVec 32

/-- One byte of the executable container (70_reset_and_hazards.md R164). The core itself has no bytes (R35). -/
abbrev Byte := BitVec 8

/-- A 5-bit register field of an instruction (30_encoding.md R56, R66). -/
abbrev RegCode := BitVec 5

/-- A 6-bit ALU microcode, "pure data; no identity beyond its bit pattern" (40_alu.md R85). -/
abbrev Microcode := BitVec 6

/-- A 6-bit opcode field (30_encoding.md R56). -/
abbrev OpValue := BitVec 6

/-- A 4-bit condition field (30_encoding.md R56). -/
abbrev CondValue := BitVec 4

/-- The Word with every bit set, `-1` in the two's-complement reading (R11). -/
def Word.allOnes : Word := 0xFFFFFFFF

end Sys2Proof
end

