-- ==== Sys2Proof/Syntax.lean ====
section
/-! DEFINITION. Sys2Proof/Syntax.lean: the typed Instruction (30_encoding.md R61 to R64, R69). -/

namespace Sys2Proof

/-- The twelve opcodes of the opcode table (30_encoding.md R61). -/
inductive Opcode where
  | nop | jmp | b | aopr | aopi | loadr | storr | load | store | clz | clof | clng
deriving DecidableEq, Repr

/-- The three instruction formats (30_encoding.md R56, R63). -/
inductive InstrType where
  | register | immediate | jump
deriving DecidableEq, Repr

/-- The nine condition names (30_encoding.md R64). What each tests is `condHolds` (42_control_unit.md R129). -/
inductive Cond where
  | always | of | no | zr | nz | ng | nn | eq | ne
deriving DecidableEq, Repr

/-- "`classify(opcode) -> {Register, Immediate, Jump}` is a total function over the fixed opcode table" (R63). -/
def Opcode.classify : Opcode → InstrType
  | .nop => .jump
  | .jmp => .jump
  | .b => .jump
  | .aopr => .register
  | .aopi => .immediate
  | .loadr => .register
  | .storr => .register
  | .load => .immediate
  | .store => .immediate
  | .clz => .register
  | .clof => .register
  | .clng => .register

/-- The opcodes in the order of the spec's table (R61). -/
def Opcode.all : List Opcode :=
  [.nop, .jmp, .b, .aopr, .aopi, .loadr, .storr, .load, .store, .clz, .clof, .clng]

/-- The conditions in the order of the spec's table (R64). -/
def Cond.all : List Cond :=
  [.always, .of, .no, .zr, .nz, .ng, .nn, .eq, .ne]

/-- The instructions of spec/opcode_table.json, one constructor a row, with the fields of R69: `R(op, cond, dest,
src, alu)`, `I(op, cond, dest, alu, imm)`, `J(op, cond, target)`. Fields an opcode does not use are kept (R71). -/
inductive Instr where
  | nop (cond : Cond) (target : Word)
  | jmp (cond : Cond) (target : Word)
  | b (cond : Cond) (target : Word)
  | aopr (cond : Cond) (dest src : RegCode) (alu : Microcode)
  | aopi (cond : Cond) (dest : RegCode) (alu : Microcode) (imm : Word)
  | loadr (cond : Cond) (dest src : RegCode) (alu : Microcode)
  | storr (cond : Cond) (dest src : RegCode) (alu : Microcode)
  | load (cond : Cond) (dest : RegCode) (alu : Microcode) (imm : Word)
  | store (cond : Cond) (dest : RegCode) (alu : Microcode) (imm : Word)
  | clz (cond : Cond) (dest src : RegCode) (alu : Microcode)
  | clof (cond : Cond) (dest src : RegCode) (alu : Microcode)
  | clng (cond : Cond) (dest src : RegCode) (alu : Microcode)
deriving DecidableEq, Repr

/-- An Instruction whose opcode value is one of the parameter `EXTRA_UNIMPLEMENTED` (R62, R69). These are no rows of
the opcode table, so they stand beside `Instr` (log 17). -/
inductive ExtraInstr where
  | register (value : OpValue) (cond : Cond) (dest src : RegCode) (alu : Microcode)
  | immediate (value : OpValue) (cond : Cond) (dest : RegCode) (alu : Microcode) (imm : Word)
  | jump (value : OpValue) (cond : Cond) (target : Word)
deriving DecidableEq, Repr

/-- What decode builds: every Instruction of R69. -/
inductive Decoded where
  | core (i : Instr)
  | extra (e : ExtraInstr)
deriving DecidableEq, Repr

/-- The opcode of a table instruction. -/
def Instr.opcode : Instr → Opcode
  | .nop .. => .nop
  | .jmp .. => .jmp
  | .b .. => .b
  | .aopr .. => .aopr
  | .aopi .. => .aopi
  | .loadr .. => .loadr
  | .storr .. => .storr
  | .load .. => .load
  | .store .. => .store
  | .clz .. => .clz
  | .clof .. => .clof
  | .clng .. => .clng

/-- The condition every instruction carries (R65). -/
def Instr.cond : Instr → Cond
  | .nop c _ => c
  | .jmp c _ => c
  | .b c _ => c
  | .aopr c _ _ _ => c
  | .aopi c _ _ _ => c
  | .loadr c _ _ _ => c
  | .storr c _ _ _ => c
  | .load c _ _ _ => c
  | .store c _ _ _ => c
  | .clz c _ _ _ => c
  | .clof c _ _ _ => c
  | .clng c _ _ _ => c

/-- The opcode value an extra instruction was decoded from. -/
def ExtraInstr.value : ExtraInstr → OpValue
  | .register v .. => v
  | .immediate v .. => v
  | .jump v .. => v

/-- The condition of an extra instruction (R65). -/
def ExtraInstr.cond : ExtraInstr → Cond
  | .register _ c _ _ _ => c
  | .immediate _ c _ _ _ => c
  | .jump _ c _ => c

/-- The type of an extra instruction (R62). -/
def ExtraInstr.type : ExtraInstr → InstrType
  | .register .. => .register
  | .immediate .. => .immediate
  | .jump .. => .jump

/-- The type of an Instruction (R63, R69). -/
def Decoded.type : Decoded → InstrType
  | .core i => i.opcode.classify
  | .extra e => e.type

/-- The condition of an Instruction (R65). -/
def Decoded.cond : Decoded → Cond
  | .core i => i.cond
  | .extra e => e.cond

end Sys2Proof
end

