-- ==== Sys2Proof/Config.lean ====
section
/-! DEFINITION. Sys2Proof/Config.lean: the named parameters of 00_scope.md R9, fixed at launch
(70_reset_and_hazards.md R179), and the values the spec leaves free. The parameters are plain data carried by the
state (log 20), so a statement about every state is a statement about every parameter value. -/

namespace Sys2Proof

/-- `OPCODE_CODE`: the 6-bit value of each opcode (30_encoding.md R61). -/
structure OpcodeCodes where
  nop : OpValue
  jmp : OpValue
  b : OpValue
  aopr : OpValue
  aopi : OpValue
  loadr : OpValue
  storr : OpValue
  load : OpValue
  store : OpValue
  clz : OpValue
  clof : OpValue
  clng : OpValue
deriving DecidableEq, Repr

/-- The value `OPCODE_CODE` gives an opcode. -/
def OpcodeCodes.code (k : OpcodeCodes) : Opcode → OpValue
  | .nop => k.nop
  | .jmp => k.jmp
  | .b => k.b
  | .aopr => k.aopr
  | .aopi => k.aopi
  | .loadr => k.loadr
  | .storr => k.storr
  | .load => k.load
  | .store => k.store
  | .clz => k.clz
  | .clof => k.clof
  | .clng => k.clng

/-- `COND_CODE`: the 4-bit value of each condition (30_encoding.md R64). -/
structure CondCodes where
  always : CondValue
  of : CondValue
  no : CondValue
  zr : CondValue
  nz : CondValue
  ng : CondValue
  nn : CondValue
  eq : CondValue
  ne : CondValue
deriving DecidableEq, Repr

/-- The value `COND_CODE` gives a condition. -/
def CondCodes.code (k : CondCodes) : Cond → CondValue
  | .always => k.always
  | .of => k.of
  | .no => k.no
  | .zr => k.zr
  | .nz => k.nz
  | .ng => k.ng
  | .nn => k.nn
  | .eq => k.eq
  | .ne => k.ne

/-- `RESERVED_BITS_POLICY` (30_encoding.md R67). -/
inductive ReservedBitsPolicy where
  | fault | ignore
deriving DecidableEq, Repr

/-- What kind of memory backs a region (20_memory.md R36, R46). -/
inductive RegionKind where
  | ram | console
deriving DecidableEq, Repr

/-- A MemoryRegion: the inclusive address range `[first, last]` and the word count of its backing memory
(20_memory.md R36, R39). -/
structure Region where
  first : Word
  last : Word
  size : Nat
  kind : RegionKind
deriving DecidableEq, Repr

/-- Whether two regions share no address (20_memory.md R37). -/
def Region.disjoint (r q : Region) : Bool :=
  decide (r.last < q.first) || decide (q.last < r.first)

/-- A well-formed `REGIONS` value: every region has `start <= end` and no two overlap (20_memory.md R36, R37). -/
def regionsWf (rs : List Region) : Bool :=
  rs.all (fun r => decide (r.first ≤ r.last)) && decide (rs.Pairwise (fun r q => r.disjoint q = true))

/-- A region with the backing size the header gives it, `end - start + 1` (20_memory.md R36). -/
def Region.ofBounds (first last : Word) (kind : RegionKind) : Region :=
  ⟨first, last, last.toNat + 1 - first.toNat, kind⟩

/-- The parameters a running core depends on. `regCodes` is `REG_CODE`: the codes of GP1, GP2, … in order, so its
length is `N_GPR` (10_state.md R18, 30_encoding.md R66). `extra` is `EXTRA_UNIMPLEMENTED` (R62), `regions` is
`REGIONS` (20_memory.md R36), `constRegs` the values of `CONST_REGS` (10_state.md R22). -/
structure Config where
  opcodes : OpcodeCodes
  conds : CondCodes
  regCodes : List RegCode
  reservedBits : ReservedBitsPolicy
  extra : List (OpValue × InstrType)
  regions : List Region
  constRegs : List Word
deriving DecidableEq, Repr

/-- `N_GPR` (10_state.md R18). -/
def Config.nGpr (k : Config) : Nat := k.regCodes.length

/-- Whether a register code names a general-purpose register (30_encoding.md R66). -/
def Config.isGpr (k : Config) (c : RegCode) : Bool := k.regCodes.contains c

/-- What the spec asks of the parameters: injective opcode and condition maps (R61, R64), distinct register codes,
`1 <= N_GPR <= 31` (10_state.md R18), `EXTRA_UNIMPLEMENTED` single-valued and disjoint from the opcode values (R62),
and a well-formed `REGIONS` (20_memory.md R37). DESIGN CHOICE (safe, log 22): a `REG_CODE` other than the default may
assign any codes, code 0 too, which the spec keeps unassigned in the default alone (30_encoding.md R66). -/
def Config.wf (k : Config) : Bool :=
  decide (Opcode.all.map k.opcodes.code).Nodup
    && decide (Cond.all.map k.conds.code).Nodup
    && decide k.regCodes.Nodup
    && decide (1 ≤ k.nGpr) && decide (k.nGpr ≤ 31)
    && decide (k.extra.map Prod.fst).Nodup
    && k.extra.all (fun e => Opcode.all.all (fun o => k.opcodes.code o != e.1))
    && regionsWf k.regions

/-- The spec's default `OPCODE_CODE` (30_encoding.md R61). -/
def OpcodeCodes.default : OpcodeCodes :=
  ⟨0x00, 0x01, 0x02, 0x03, 0x04, 0x05, 0x06, 0x07, 0x08, 0x09, 0x0A, 0x0B⟩

/-- The spec's default `COND_CODE` (30_encoding.md R64). -/
def CondCodes.default : CondCodes :=
  ⟨0x0, 0x1, 0x2, 0x3, 0x4, 0x5, 0x6, 0x7, 0x8⟩

/-- The default `REG_CODE` for `n` registers: code k names GPk (30_encoding.md R66). -/
def regCodesUpTo (n : Nat) : List RegCode := (List.range n).map (fun k => BitVec.ofNat 5 (k + 1))

/-- The regions of the configuration every vector of 95_test_vectors.md uses (log 4). -/
def Config.defaultRegions : List Region :=
  [Region.ofBounds 0x000 0x0FF .ram, Region.ofBounds 0x100 0x10F .console]

/-- The spec's defaults. DESIGN CHOICE: `N_GPR` = 31, which the spec leaves OPEN (log 5), the regions of the
test-vector configuration (log 4), and an empty `CONST_REGS` (10_state.md R22, log 7). -/
def Config.default : Config where
  opcodes := .default
  conds := .default
  regCodes := regCodesUpTo 31
  reservedBits := .fault
  extra := []
  regions := Config.defaultRegions
  constRegs := []

/-- DESIGN CHOICE (safe, log 12). FREE VALUE: whether a cell that the faulting micro-operation writes shows its new value
(true) or its old one (false) in the faulted state. "Which partial writes of that micro-operation are visible in the
faulted state is not specified" (41_fabric.md R119, 93_implementation_defined.md row 8). The arguments are the words
of the state before the micro-operation and the number of the cell. -/
opaque Config.partialWriteShows : List Word → Nat → Bool

/-- DESIGN CHOICE (safe, log 12). FREE VALUE: what a MemRead that faults leaves on the bus, as a function of the
address (41_fabric.md R119). -/
opaque Config.faultedReadWord : Word → Word

/-- FREE VALUE (safe, log 16). `CONSOLE_ECHO`, OPEN: which written console Words the external sink prints, and as
which character (60_exceptions.md R160). -/
opaque Config.consoleEcho : Word → Option Char

end Sys2Proof
end

