-- ==== Sys2Proof/WellFormed.lean ====
section
/-! DEFINITION. Sys2Proof/WellFormed.lean: the checks an Instruction passes, exactly where its opcode uses a register
field (30_encoding.md R71). -/

namespace Sys2Proof

/-- The register fields the opcode uses, dest before src (30_encoding.md R71). -/
def Instr.usedRegs : Instr → List RegCode
  | .nop _ _ => []
  | .jmp _ _ => []
  | .b _ _ => []
  | .aopr _ d s _ => [d, s]
  | .aopi _ d _ _ => [d]
  | .loadr _ d s _ => [d, s]
  | .storr _ d s _ => [d, s]
  | .load _ d _ _ => [d]
  | .store _ d _ _ => [d]
  | .clz _ _ _ _ => []
  | .clof _ _ _ _ => []
  | .clng _ _ _ _ => []

/-- Every register field the opcode uses names a general-purpose register (30_encoding.md R66, R71). -/
def Instr.wf (k : Config) (i : Instr) : Bool := i.usedRegs.all k.isGpr

/-- An extra instruction belongs to `EXTRA_UNIMPLEMENTED` with its type; its register fields are unchecked (R62). -/
def ExtraInstr.wf (k : Config) (e : ExtraInstr) : Bool := k.extra.contains (e.value, e.type)

/-- A well-formed Instruction of R69. -/
def Decoded.wf (k : Config) : Decoded → Bool
  | .core i => i.wf k
  | .extra e => e.wf k

end Sys2Proof
end

