-- ==== Sys2Proof/Decode.lean ====
section
/-! DEFINITION. Sys2Proof/Decode.lean: the instruction codec (30_encoding.md R55 to R74): fields, decode with its four
errors in the order of R70, and the encoder of R72. -/

namespace Sys2Proof

/-! ## Fields of the low Word (30_encoding.md R56 to R59) -/

/-- Bits 31–26, every format. -/
def opField (w0 : Word) : OpValue := w0.extractLsb' 26 6
/-- Bits 25–22, every format. -/
def condField (w0 : Word) : CondValue := w0.extractLsb' 22 4
/-- Bits 21–17, R and I. -/
def destField (w0 : Word) : RegCode := w0.extractLsb' 17 5
/-- Bits 16–12, R only. -/
def srcField (w0 : Word) : RegCode := w0.extractLsb' 12 5
/-- Bits 11–6, the microcode of an R-type. -/
def aluFieldR (w0 : Word) : Microcode := w0.extractLsb' 6 6
/-- Bits 16–11, the microcode of an I-type. -/
def aluFieldI (w0 : Word) : Microcode := w0.extractLsb' 11 6

/-- Whether a reserved bit of the format is 1: low Word bits 5–0 and the whole high Word of an R-type (R57), low Word
bits 10–0 of an I-type (R58), low Word bits 21–0 of a J-type (R59). -/
def reservedSet (t : InstrType) (w0 w1 : Word) : Bool :=
  match t with
  | .register => w0.extractLsb' 0 6 != 0 || w1 != 0
  | .immediate => w0.extractLsb' 0 11 != 0
  | .jump => w0.extractLsb' 0 22 != 0

/-! ## Opcode and condition lookup -/

/-- An opcode value that decode recognises: of the table, or of `EXTRA_UNIMPLEMENTED` with its type (R61, R62). -/
inductive OpcodeRef where
  | core (op : Opcode)
  | extra (value : OpValue) (type : InstrType)
deriving DecidableEq, Repr

/-- The type decode gives an opcode (R62, R63). -/
def OpcodeRef.type : OpcodeRef → InstrType
  | .core op => op.classify
  | .extra _ t => t

/-- `lookup OPCODE_CODE^-1(v), else EXTRA_UNIMPLEMENTED(v)` (R70). -/
def lookupOpcode (k : Config) (v : OpValue) : Option OpcodeRef :=
  match Opcode.all.find? (fun op => k.opcodes.code op == v) with
  | some op => some (.core op)
  | none =>
    match k.extra.find? (fun e => e.1 == v) with
    | some e => some (.extra e.1 e.2)
    | none => none

/-- `lookup COND_CODE^-1(v)` (R70). -/
def lookupCond (k : Config) (v : CondValue) : Option Cond :=
  Cond.all.find? (fun c => k.conds.code c == v)

/-- The DecodeErrors of the Decode phase (60_exceptions.md R148). -/
inductive DecodeError where
  | unknownOpcode
  | unknownCondition
  | unknownRegister
  | reservedBitsSet
  /-- Conditions EQ and NE, raised at Execute, never by `decode` (42_control_unit.md R129). -/
  | reservedCondition
deriving DecidableEq, Repr

/-- What decode answers. -/
inductive DecodeResult where
  | ok (i : Decoded)
  | error (e : DecodeError)
deriving DecidableEq, Repr

/-- The Instruction the fields give, before any check of registers or reserved bits (R70, R69). -/
def buildInstr (r : OpcodeRef) (c : Cond) (w0 w1 : Word) : Decoded :=
  match r with
  | .core .nop => .core (.nop c w1)
  | .core .jmp => .core (.jmp c w1)
  | .core .b => .core (.b c w1)
  | .core .aopr => .core (.aopr c (destField w0) (srcField w0) (aluFieldR w0))
  | .core .aopi => .core (.aopi c (destField w0) (aluFieldI w0) w1)
  | .core .loadr => .core (.loadr c (destField w0) (srcField w0) (aluFieldR w0))
  | .core .storr => .core (.storr c (destField w0) (srcField w0) (aluFieldR w0))
  | .core .load => .core (.load c (destField w0) (aluFieldI w0) w1)
  | .core .store => .core (.store c (destField w0) (aluFieldI w0) w1)
  | .core .clz => .core (.clz c (destField w0) (srcField w0) (aluFieldR w0))
  | .core .clof => .core (.clof c (destField w0) (srcField w0) (aluFieldR w0))
  | .core .clng => .core (.clng c (destField w0) (srcField w0) (aluFieldR w0))
  | .extra v .register => .extra (.register v c (destField w0) (srcField w0) (aluFieldR w0))
  | .extra v .immediate => .extra (.immediate v c (destField w0) (aluFieldI w0) w1)
  | .extra v .jump => .extra (.jump v c w1)

/-- `decode(w0, w1)` (30_encoding.md R70): opcode, then condition, then registers, then reserved bits. -/
def decode (k : Config) (w0 w1 : Word) : DecodeResult :=
  match lookupOpcode k (opField w0) with
  | none => .error .unknownOpcode
  | some r =>
    match lookupCond k (condField w0) with
    | none => .error .unknownCondition
    | some c =>
      if (buildInstr r c w0 w1).wf k = false then .error .unknownRegister
      else if reservedSet r.type w0 w1 = true ∧ k.reservedBits = .fault then .error .reservedBitsSet
      else .ok (buildInstr r c w0 w1)

/-! ## Encode (30_encoding.md R72) -/

/-- The fields every format shares: `op<<26 | cond<<22`. -/
def encodeHead (v : OpValue) (c : CondValue) : Word :=
  (v.setWidth 32 <<< 26) ||| (c.setWidth 32 <<< 22)

/-- `encode(R(op, c, d, s, a))`. -/
def encodeR (v : OpValue) (c : CondValue) (d s : RegCode) (a : Microcode) : Word × Word :=
  (encodeHead v c ||| (d.setWidth 32 <<< 17) ||| (s.setWidth 32 <<< 12) ||| (a.setWidth 32 <<< 6), 0)

/-- `encode(I(op, c, d, a, imm))`. -/
def encodeI (v : OpValue) (c : CondValue) (d : RegCode) (a : Microcode) (imm : Word) : Word × Word :=
  (encodeHead v c ||| (d.setWidth 32 <<< 17) ||| (a.setWidth 32 <<< 11), imm)

/-- `encode(J(op, c, t))`. -/
def encodeJ (v : OpValue) (c : CondValue) (t : Word) : Word × Word := (encodeHead v c, t)

/-- The two Words of a table instruction, low Word first (R72). -/
def encode (k : Config) : Instr → Word × Word
  | .nop c t => encodeJ k.opcodes.nop (k.conds.code c) t
  | .jmp c t => encodeJ k.opcodes.jmp (k.conds.code c) t
  | .b c t => encodeJ k.opcodes.b (k.conds.code c) t
  | .aopr c d s a => encodeR k.opcodes.aopr (k.conds.code c) d s a
  | .aopi c d a imm => encodeI k.opcodes.aopi (k.conds.code c) d a imm
  | .loadr c d s a => encodeR k.opcodes.loadr (k.conds.code c) d s a
  | .storr c d s a => encodeR k.opcodes.storr (k.conds.code c) d s a
  | .load c d a imm => encodeI k.opcodes.load (k.conds.code c) d a imm
  | .store c d a imm => encodeI k.opcodes.store (k.conds.code c) d a imm
  | .clz c d s a => encodeR k.opcodes.clz (k.conds.code c) d s a
  | .clof c d s a => encodeR k.opcodes.clof (k.conds.code c) d s a
  | .clng c d s a => encodeR k.opcodes.clng (k.conds.code c) d s a

/-- The two Words of an extra instruction (R62, R72). -/
def encodeExtra (k : Config) : ExtraInstr → Word × Word
  | .register v c d s a => encodeR v (k.conds.code c) d s a
  | .immediate v c d a imm => encodeI v (k.conds.code c) d a imm
  | .jump v c t => encodeJ v (k.conds.code c) t

/-- The two Words of any Instruction of R69. -/
def encodeDecoded (k : Config) : Decoded → Word × Word
  | .core i => encode k i
  | .extra e => encodeExtra k e

/-! ## The opcode table's words -/

/-- Bits 31–0 of an instruction whose bits are `w`, bits from `nbits` up being zero: the low Word. -/
def tableLowWord (nbits w : Nat) : Word := BitVec.ofNat 32 (w % 2 ^ nbits)

/-- Bits 63–32 of such an instruction: the high Word. -/
def tableHighWord (nbits w : Nat) : Word := BitVec.ofNat 32 (w % 2 ^ nbits / 2 ^ 32)

/-- The table instruction decode reads, under the default parameters, from the two Words of an instruction whose bits
are `w`; none where it refuses. -/
def decodeTableWord (nbits w : Nat) : Option Instr :=
  match decode Config.default (tableLowWord nbits w) (tableHighWord nbits w) with
  | .ok (.core i) => some i
  | .ok (.extra _) => none
  | .error _ => none

end Sys2Proof
end

