-- ==== Sys2Proof/Machine/State.lean ====
section
/-! DEFINITION. Sys2Proof/Machine/State.lean: every piece of state of 10_state.md, the faults of 60_exceptions.md, and
the launch state of 70_reset_and_hazards.md R168. -/

namespace Sys2Proof.Machine

open Sys2Proof

/-- A bus address: the cells of 10_state.md R25. A general-purpose register's bus address is its 5-bit code, "left to
the model" (log 21); `const n` is the n-th constant register (R22), `void` the void register (R24). -/
inductive BusAddr where
  | gp (code : RegCode)
  | pc | mar | mdr | ira | irb
  | const (n : Nat)
  | void
deriving DecidableEq, Repr

/-- The four status flags (10_state.md R26). -/
structure Flags where
  overflow : Bool
  zero : Bool
  negative : Bool
  carry : Bool
deriving DecidableEq, Repr

/-- The control-unit states (10_state.md R30, 42_control_unit.md R121). -/
inductive Phase where
  | fetch1 | fetch2 | decode | execute
deriving DecidableEq, Repr

/-- The backing memories as one list of (word address, Word), addresses strictly rising (log 3). An address with no
entry is a Word nothing has written, which holds no value (10_state.md R34, log 2). -/
abbrev Memory := List (Nat × Word)

/-- The two FabricErrors (41_fabric.md R114). -/
inductive FabricError where
  | illegalAddress
  | accessViolation
deriving DecidableEq, Repr

/-- The kind and sub-code of a fault (60_exceptions.md R148). -/
inductive FaultKind where
  | decodeError (e : DecodeError)
  | unimplementedOpcode (value : OpValue)
  | addressFault (address : Word)
  | fabricError (e : FabricError)
  | unwrittenRead (address : Word)
deriving DecidableEq, Repr

/-- What a fault records (60_exceptions.md R149). The address of an AddressFault stands in its kind. -/
structure FaultRecord where
  kind : FaultKind
  phase : Phase
  pc : Word
  ira : Word
  irb : Word
deriving DecidableEq, Repr

/-- The machine. One field for every piece of state in 10_state.md, and the parameters fixed at launch. -/
structure State where
  /-- The parameters of 00_scope.md R9, `REGIONS` and the constant registers among them (R22, R168, log 20). -/
  config : Config
  /-- The general-purpose registers by operand code (R18). Only codes in `config.regCodes` name one (log 21). -/
  gpr : Vector Word 32
  /-- Program counter (R19). -/
  pc : Word
  /-- Memory address register (R20). -/
  mar : Word
  /-- Memory data register (R21). -/
  mdr : Word
  /-- Low instruction register (R23). -/
  ira : Word
  /-- High instruction register (R23). -/
  irb : Word
  /-- Latched status flags (R26). -/
  flags : Flags
  /-- Flag-enable bit (R27). -/
  fe : Bool
  /-- A-feed operand latch (R28). -/
  aluA : Word
  /-- B-feed operand latch (R28). -/
  aluB : Word
  /-- Current ALU microcode (R29). -/
  aluOp : Microcode
  /-- Current A-feed source (R29). -/
  selA : BusAddr
  /-- Current B-feed source (R29). -/
  selB : BusAddr
  /-- Current Writeback destination, VOID between micro-operations (R29). -/
  selW : BusAddr
  /-- Control-unit state (R30). -/
  cu : Phase
  /-- Current instruction, absent before the first Decode (R31). -/
  cur : Option Decoded
  /-- Fault record (R32): absent until the first fault, never cleared. -/
  fault : Option FaultRecord
  /-- The backing memories of every region (20_memory.md R36). -/
  mem : Memory
  /-- The `ConsoleWrite` events emitted so far, oldest first (20_memory.md R46). DESIGN CHOICE: the model's own field
  for the event (log 15). -/
  consoleOut : List Word
deriving DecidableEq, Repr

/-- Why a step stops. The first five are the faults of 60_exceptions.md R148; each carries the faulted state, whose
`fault` field is the record of R149 and which the driver may inspect (R167). The spec gives a faulted state no step,
so all of these are safe (log 11). -/
inductive Fault where
  /-- Raised by Decode on a pair that is no Instruction (R70), and by Execute for EQ and NE (R129). Safe. -/
  | decodeError (e : DecodeError) (stopped : State)
  /-- Raised by CLZ, CLOF, CLNG and `EXTRA_UNIMPLEMENTED` opcodes whose condition holds (R143 to R146). Safe. -/
  | unimplementedOpcode (value : OpValue) (stopped : State)
  /-- Raised by MemRead and MemWrite when no region or no backing word holds the address (20_memory.md R38, R39). Safe. -/
  | addressFault (address : Word) (stopped : State)
  /-- Raised by a micro-operation that names a register off a bus's whitelist or against its access (41_fabric.md
  R114). No decoded Instruction reaches it (R120). Safe. -/
  | fabricError (e : FabricError) (stopped : State)
  /-- Raised by MemRead of a memory word nothing has written (10_state.md R34). Safe. -/
  | unwrittenRead (address : Word) (stopped : State)
  /-- Raised by `step` in a faulted state, which "has no step" (60_exceptions.md R150). Safe. -/
  | alreadyFaulted (stopped : State)
  /-- Raised by `step` in Execute with no current instruction, a state no run reaches (10_state.md R31, log 11). Safe. -/
  | noCurrentInstruction (stopped : State)
deriving DecidableEq, Repr

/-- Why a step is refused. -/
inductive Refusal where
  /-- Raised by an arm of `exec` whose instruction has no meaning yet. Safe: the step claims nothing. -/
  | notModelled (mnemonic : String)
deriving DecidableEq, Repr

/-- The outcome of a step of this machine. -/
abbrev Outcome := Host.Outcome State Fault Refusal

/-- `INIT_STATE`: launch values of the cells R168 leaves unwritten (70_reset_and_hazards.md R169). -/
structure InitState where
  gpr : Vector Word 32
  mar : Word
  mdr : Word
  ira : Word
  irb : Word
  aluA : Word
  aluB : Word
  flags : Flags
  mem : Memory
deriving DecidableEq, Repr

/-- DESIGN CHOICE (unsafe, log 1): every register and latch starts at zero and every flag at false, where the spec's
default leaves them unwritten (R168). Memory is left unwritten, as the spec's default has it. -/
def InitState.zero : InitState where
  gpr := Vector.replicate 32 0
  mar := 0
  mdr := 0
  ira := 0
  irb := 0
  aluA := 0
  aluB := 0
  flags := ⟨false, false, false, false⟩
  mem := []

/-- The launch state of 70_reset_and_hazards.md R168, before the program's Words are placed. `selA`, `selB` and `aluOp`
have no launch value in the spec: DESIGN CHOICE (unsafe, log 8). -/
def State.launch (k : Config) (entry : Word) (init : InitState) : State where
  config := k
  gpr := init.gpr
  pc := entry
  mar := init.mar
  mdr := init.mdr
  ira := init.ira
  irb := init.irb
  flags := init.flags
  fe := false
  aluA := init.aluA
  aluB := init.aluB
  aluOp := 0
  selA := .pc
  selB := .pc
  selW := .void
  cu := .fetch1
  cur := none
  fault := none
  mem := init.mem
  consoleOut := []

/-- The machine right after reset: the launch state of R168 with no program placed (log 9), the default parameters, and
`ENTRY_POINT` = 0 as in the test-vector configuration (DESIGN CHOICE, log 4). -/
def State.reset : State := State.launch Config.default 0 InitState.zero

end Sys2Proof.Machine
end

