-- ==== Sys2Proof/Machine/Flags.lean ====
section
/-! DEFINITION. Sys2Proof/Machine/Flags.lean: the ALU with every flag computation (40_alu.md), and the conditions that
read the flags (42_control_unit.md R129). -/

namespace Sys2Proof.Machine

open Sys2Proof

/-! ## Microcode bits (40_alu.md R85): `zx = op[5]` … `no = op[0]` -/

def microZx (op : Microcode) : Bool := op.getLsbD 5
def microNx (op : Microcode) : Bool := op.getLsbD 4
def microZy (op : Microcode) : Bool := op.getLsbD 3
def microNy (op : Microcode) : Bool := op.getLsbD 2
def microF (op : Microcode) : Bool := op.getLsbD 1
def microNo (op : Microcode) : Bool := op.getLsbD 0

/-- Steps 1 and 2 of R86 for one operand: "zx ⇒ x := 0; then nx ⇒ x := ¬x". -/
def prepOperand (z n : Bool) (v : Word) : Word :=
  let w : Word := if z then 0 else v
  if n then ~~~w else w

/-- The preprocessed operand A. -/
def aluX (op : Microcode) (x : Word) : Word := prepOperand (microZx op) (microNx op) x

/-- The preprocessed operand B. -/
def aluY (op : Microcode) (y : Word) : Word := prepOperand (microZy op) (microNy op) y

/-- Steps 3 and 4 of R86: "out := x + y if f else x & y"; "no ⇒ out := ¬out". -/
def aluOut (x y : Word) (op : Microcode) : Word :=
  let w := if microF op then aluX op x + aluY op y else aluX op x &&& aluY op y
  if microNo op then ~~~w else w

/-- The exact 33-bit sum of the preprocessed operands (00_scope.md R11). -/
def aluSum33 (x y : Word) (op : Microcode) : BitVec 33 :=
  (aluX op x).zeroExtend 33 + (aluY op y).zeroExtend 33

/-- "true only when `f` was set and the 33-bit widened sum differs from the 32-bit truncated sum" (40_alu.md R88). -/
def aluOverflow (x y : Word) (op : Microcode) : Bool :=
  microF op && (aluSum33 x y op != ((aluSum33 x y op).setWidth 32).zeroExtend 33)

/-- The flags of a result: R88 to R91, `carry` being "same value as `overflow`". -/
def aluFlags (x y : Word) (op : Microcode) : Flags where
  overflow := aluOverflow x y op
  zero := aluOut x y op == 0
  negative := (aluOut x y op).getLsbD 31
  carry := aluOverflow x y op

/-- `compute(x, y, op) -> (Word, Flags)` (40_alu.md R84, R86): total, for every one of the 64 microcodes (R109). -/
def compute (x y : Word) (op : Microcode) : Word × Flags := (aluOut x y op, aluFlags x y op)

/-! ## The named microcodes (40_alu.md R94 to R108) -/

def transferA : Microcode := 0x0C
def transferB : Microcode := 0x30
def additionSigned : Microcode := 0x02
def abSubtractionSigned : Microcode := 0x13
def baSubtractionSigned : Microcode := 0x07
def aNegative : Microcode := 0x0F
def bNegative : Microcode := 0x33
def aIncrement : Microcode := 0x1F
def bIncrement : Microcode := 0x37
def aDecrement : Microcode := 0x0E
def bDecrement : Microcode := 0x32
def logicalAnd : Microcode := 0x00
def logicalOr : Microcode := 0x15
def aLogicalNot : Microcode := 0x0D
def bLogicalNot : Microcode := 0x31

/-! ## Conditions -/

/-- What the evaluation of a condition answers: whether it holds, or that it is reserved (EQ and NE). -/
inductive CondResult where
  | holds (yes : Bool)
  | reserved
deriving DecidableEq, Repr

/-- `condHolds` (42_control_unit.md R129). No condition reads `carry`. -/
def condHolds (c : Cond) (f : Flags) : CondResult :=
  match c with
  | .always => .holds true
  | .of => .holds f.overflow
  | .no => .holds (!f.overflow)
  | .zr => .holds f.zero
  | .nz => .holds (!f.zero)
  | .ng => .holds f.negative
  | .nn => .holds (!f.negative)
  | .eq => .reserved
  | .ne => .reserved

end Sys2Proof.Machine
end

