-- ==== Sys2Proof/Machine/Operands.lean ====
section
/-! DEFINITION. Sys2Proof/Machine/Operands.lean: the register cells as the fabric sees them (10_state.md R14 to R25):
their attributes, their storage, the bus whitelists, and the operand forms of instructions (30_encoding.md R60). -/

namespace Sys2Proof.Machine

open Sys2Proof

/-- The `access` attribute (10_state.md R15). -/
inductive Access where
  | readOnly | readWrite | writeOnly
deriving DecidableEq, Repr

/-- The access attribute of each register (10_state.md R18 to R24). -/
def BusAddr.access : BusAddr → Access
  | .gp _ => .readWrite
  | .pc => .readWrite
  | .mar => .readWrite
  | .mdr => .readWrite
  | .ira => .readWrite
  | .irb => .readWrite
  | .const _ => .readOnly
  | .void => .writeOnly

/-- The `special` flag: "not directly addressable by instruction operands", every register but the general-purpose
ones (10_state.md R16). -/
def BusAddr.special : BusAddr → Bool
  | .gp _ => false
  | .pc => true
  | .mar => true
  | .mdr => true
  | .ira => true
  | .irb => true
  | .const _ => true
  | .void => true

/-- The variant tags of 10_state.md R17. -/
inductive RegVariant where
  | plain | computedOnRead | computedOnWrite
deriving DecidableEq, Repr

/-- MDR "is both ComputedOnRead and ComputedOnWrite"; every other register is Plain (10_state.md R17). -/
def BusAddr.variants : BusAddr → List RegVariant
  | .mdr => [.computedOnRead, .computedOnWrite]
  | .gp _ => [.plain]
  | .pc => [.plain]
  | .mar => [.plain]
  | .ira => [.plain]
  | .irb => [.plain]
  | .const _ => [.plain]
  | .void => [.plain]

/-- Whether a cell is in the bus address space (10_state.md R25): general-purpose and constant registers only as far
as the parameters give them. -/
def BusAddr.exists (k : Config) : BusAddr → Bool
  | .gp c => k.isGpr c
  | .pc => true
  | .mar => true
  | .mdr => true
  | .ira => true
  | .irb => true
  | .const n => decide (n < k.constRegs.length)
  | .void => true

/-- The A-feed and B-feed whitelist: "every register cell except VOID" (41_fabric.md R112). -/
def BusAddr.feedListed (k : Config) (r : BusAddr) : Bool :=
  r.exists k && r != .void

/-- The Writeback whitelist: "every register cell except the constant registers, plus VOID" (41_fabric.md R112). -/
def BusAddr.writebackListed (k : Config) (r : BusAddr) : Bool :=
  r.exists k && (r.access != .readOnly)

/-- `x[r]` (00_scope.md R12). VOID holds nothing, and no micro-operation that resolves reads it (10_state.md R24). -/
def State.readCell (s : State) : BusAddr → Word
  | .gp c => s.gpr[c.toNat]
  | .pc => s.pc
  | .mar => s.mar
  | .mdr => s.mdr
  | .ira => s.ira
  | .irb => s.irb
  | .const n => s.config.constRegs.getD n 0
  | .void => 0

/-- `x[r] <- v` (00_scope.md R12). A value written to VOID is discarded (10_state.md R24), and a constant register is
never written (R22). -/
def State.writeCell (s : State) (r : BusAddr) (v : Word) : State :=
  match r with
  | .gp c => { s with gpr := s.gpr.set c.toNat v }
  | .pc => { s with pc := v }
  | .mar => { s with mar := v }
  | .mdr => { s with mdr := v }
  | .ira => { s with ira := v }
  | .irb => { s with irb := v }
  | .const _ => s
  | .void => s

/-! ## Operand forms (30_encoding.md R60) -/

/-- A register operand: the general-purpose register a 5-bit code names (30_encoding.md R66). -/
def regOperand (c : RegCode) : BusAddr := .gp c

/-- The immediate or jump-target operand: the high Word taken whole, read from IRB by the Execute micro-operations
(10_state.md R23, 42_control_unit.md, log 14). -/
def highWordOperand : BusAddr := .irb

end Sys2Proof.Machine
end

