-- ==== Sys2Proof/Machine/Ops.lean ====
section
/-! DEFINITION. Sys2Proof/Machine/Ops.lean: the named operations over memory and registers: the MMU (20_memory.md R36 to
R46), one fabric micro-operation (41_fabric.md R116), raising a fault (60_exceptions.md R149), and the frame of the
Execute phase (42_control_unit.md R128). -/

namespace Sys2Proof.Machine

open Sys2Proof

/-! ## Memory as a sorted list of cells (log 3) -/

/-- The Word at an address, `none` where nothing has written it. -/
def Memory.read : Memory → Nat → Option Word
  | [], _ => none
  | c :: m, a => if c.1 = a then some c.2 else Memory.read m a

/-- Writes one Word, keeping the addresses strictly rising. -/
def Memory.write : Memory → Nat → Word → Memory
  | [], a, v => [(a, v)]
  | c :: m, a, v =>
    if a < c.1 then (a, v) :: c :: m
    else if a = c.1 then (a, v) :: m
    else c :: Memory.write m a v

/-- The canonical form: addresses strictly rising, and each a 32-bit address (20_memory.md R35). An unlisted address
reads as no value, which no entry equals. -/
def Memory.wf (m : Memory) : Bool :=
  decide (m.Pairwise (fun c d => c.1 < d.1)) && m.all (fun c => decide (c.1 < 2 ^ 32))

/-! ## The memory-management unit -/

/-- Whether a region's range holds an address (20_memory.md R38). -/
def regionContains (r : Region) (a : Word) : Bool :=
  decide (r.first ≤ a) && decide (a ≤ r.last)

/-- `translate(addr) -> (region, relative_addr)`: "the first region whose range contains `addr` wins; none found ⇒
`AddressFault`" (20_memory.md R38). -/
def translateAddr : List Region → Word → Option (Region × Word)
  | [], _ => none
  | r :: rs, a => if regionContains r a then some (r, a - r.first) else translateAddr rs a

/-- Where the list of cells keeps word `rel` of a region's backing memory (log 3). -/
def backingKey (r : Region) (rel : Word) : Nat := (r.first + rel).toNat

/-- The region and backing word of an address, or AddressFault: no region, or "`rel >= backing.size`" (20_memory.md
R38, R39). -/
def resolveAddr (rs : List Region) (a : Word) : Except FaultKind (Region × Word) :=
  match translateAddr rs a with
  | none => .error (.addressFault a)
  | some p => if p.1.size ≤ p.2.toNat then .error (.addressFault a) else .ok p

/-- `MemRead(addr, 1)` (20_memory.md R40). -/
def memRead (s : State) (a : Word) : Except FaultKind Word :=
  match resolveAddr s.config.regions a with
  | .error e => .error e
  | .ok p =>
    match s.mem.read (backingKey p.1 p.2) with
    | none => .error (.unwrittenRead a)
    | some w => .ok w

/-- The `ConsoleWrite` events after a write into a region (20_memory.md R46). -/
def consoleAfter (kind : RegionKind) (out : List Word) (v : Word) : List Word :=
  match kind with
  | .ram => out
  | .console => out ++ [v]

/-- `MemWrite(addr, 1, v)` (20_memory.md R41). On an AddressFault the backing memory is not written. -/
def memWrite (s : State) (a : Word) (v : Word) : Except FaultKind State :=
  match resolveAddr s.config.regions a with
  | .error e => .error e
  | .ok p =>
    .ok { s with
      mem := s.mem.write (backingKey p.1 p.2) v
      consoleOut := consoleAfter p.1.kind s.consoleOut v }

/-! ## Raising a fault -/

/-- The record of a fault raised in `s` (60_exceptions.md R149). -/
def faultRecord (k : FaultKind) (s : State) : FaultRecord := ⟨k, s.cu, s.pc, s.ira, s.irb⟩

/-- `raise E(info)` (00_scope.md R12): the fault record is set, `cu` stays, and the step ends with the fault
(42_control_unit.md R123, 60_exceptions.md R149). There is no trap entry to take (R154) and no return from one (R155),
so this is all of what an exception does. -/
def raiseFault (k : FaultKind) (s : State) : Fault :=
  let t := { s with fault := some (faultRecord k s) }
  match k with
  | .decodeError e => .decodeError e t
  | .unimplementedOpcode v => .unimplementedOpcode v t
  | .addressFault a => .addressFault a t
  | .fabricError e => .fabricError e t
  | .unwrittenRead a => .unwrittenRead a t

/-- A sequence of micro-operations so far: still running, or ended by a fault in a state. -/
inductive Run where
  | ok (s : State)
  | raised (k : FaultKind) (s : State)
deriving DecidableEq, Repr

/-- The next micro-operations, unless one has already faulted: "performs no later micro-operation of its state"
(42_control_unit.md R123). -/
def Run.andThen (r : Run) (f : State → Run) : Run :=
  match r with
  | .ok s => f s
  | .raised k s => .raised k s

/-- The end of a pulse: the last change of the phase, or the fault. -/
def Run.finish (r : Run) (f : State → State) : Outcome :=
  match r with
  | .ok s => .next (f s)
  | .raised k s => .fault (raiseFault k s)

/-! ## One micro-operation (41_fabric.md R116) -/

/-- Whether a feed bus that is reselected names a register cell (10_state.md R25); `keep` is `none`. -/
def feedNamed (k : Config) (src : Option BusAddr) : Bool :=
  match src with
  | none => true
  | some r => r.exists k

/-- Whether a feed bus that is reselected names a cell that may be a source (10_state.md R15). -/
def feedReadable (src : Option BusAddr) : Bool :=
  match src with
  | none => true
  | some r => r.access != .writeOnly

/-- The checks of R114 and R116, made before any transfer. An address that names no register cell is on no whitelist:
IllegalAddress. A cell selected against its access, VOID as a source or a constant register as destination, is
AccessViolation (10_state.md R15, R24), although R112 leaves it off that whitelist too (log 13). What passes is what
the whitelists list. -/
def resolveUop (k : Config) (srcA srcB : Option BusAddr) (dst : BusAddr) : Option FabricError :=
  if (feedNamed k srcA && feedNamed k srcB && dst.exists k) = false then some .illegalAddress
  else if (feedReadable srcA && feedReadable srcB && (dst.access != .readOnly)) = false then some .accessViolation
  else none

/-- `busRead(r)` without the value: reading a ComputedOnRead cell (MDR) first performs `MDR <- MemRead(MAR, 1)`
(41_fabric.md R116, 20_memory.md R45). The state beside a fault is the would-be state of the micro-operation, in which
MDR holds a free value (log 12). -/
def busRead (r : BusAddr) (s : State) : State × Option FaultKind :=
  if r.variants.contains .computedOnRead then
    match memRead s s.mar with
    | .ok w => ({ s with mdr := w }, none)
    | .error e => ({ s with mdr := Config.faultedReadWord s.mar }, some e)
  else (s, none)

/-- A-feed selection: "copies the source register's current value into the operand latch" (41_fabric.md R113). -/
def feedA (src : Option BusAddr) (s : State) : State × Option FaultKind :=
  match src with
  | none => (s, none)
  | some r =>
    let p := busRead r s
    ({ p.1 with aluA := p.1.readCell r, selA := r }, p.2)

/-- B-feed selection. -/
def feedB (src : Option BusAddr) (s : State) : State × Option FaultKind :=
  match src with
  | none => (s, none)
  | some r =>
    let p := busRead r s
    ({ p.1 with aluB := p.1.readCell r, selB := r }, p.2)

/-- `busWrite(r, v)`: writing a ComputedOnWrite cell (MDR) also performs `MemWrite(MAR, 1, v)` (41_fabric.md R116). -/
def busWrite (r : BusAddr) (v : Word) (s : State) : State × Option FaultKind :=
  let t := s.writeCell r v
  if r.variants.contains .computedOnWrite then
    match memWrite t t.mar v with
    | .ok u => (u, none)
    | .error e => (t, some e)
  else (t, none)

/-- "A commit writes all four latched flags at once", while `fe` is true (40_alu.md R92). -/
def State.commitFlags (s : State) (f : Flags) : State := if s.fe then { s with flags := f } else s

/-- The first half of R116's commit: A-feed before B-feed, then the microcode and the destination are selected. -/
def latchUop (srcA srcB : Option BusAddr) (op : Microcode) (dst : BusAddr) (s : State) : State × Option FaultKind :=
  let a := feedA srcA s
  let b := feedB srcB a.1
  ({ b.1 with aluOp := op, selW := dst }, a.2.or b.2)

/-- The second half: `(out, fl) <- compute(aluA, aluB, aluOp)`, the writeback, the flag commit and the void reset. -/
def writebackUop (dst : BusAddr) (s : State) : State × Option FaultKind :=
  let r := compute s.aluA s.aluB s.aluOp
  let w := busWrite dst r.1 s
  ({ w.1.commitFlags r.2 with selW := .void }, w.2)

/-- The commit of R116 with the first fault in its order. -/
def commitUop (srcA srcB : Option BusAddr) (op : Microcode) (dst : BusAddr) (s : State) : State × Option FaultKind :=
  let l := latchUop srcA srcB op dst s
  let w := writebackUop dst l.1
  (w.1, l.2.or w.2)

/-- The words of a state the free choice of `partialWrites` may depend on. -/
def State.words (s : State) : List Word := [s.pc, s.mar, s.mdr, s.ira, s.irb, s.aluA, s.aluB]

/-- The state a faulting micro-operation leaves: "each cell that micro-operation would write holds either its old or
its new value" (93_implementation_defined.md row 8), chosen by a free value (log 12). `old` is the state before the
micro-operation, `new` what it would have left. The memory is not written on an AddressFault (20_memory.md R41). -/
def State.partialWrites (old new : State) : State :=
  let shows := fun n => Config.partialWriteShows old.words n
  { new with
    gpr := Vector.ofFn fun i => if shows i.val then new.gpr[i] else old.gpr[i]
    pc := if shows 32 then new.pc else old.pc
    mar := if shows 33 then new.mar else old.mar
    mdr := if shows 34 then new.mdr else old.mdr
    ira := if shows 35 then new.ira else old.ira
    irb := if shows 36 then new.irb else old.irb
    flags := if shows 37 then new.flags else old.flags
    aluA := if shows 38 then new.aluA else old.aluA
    aluB := if shows 39 then new.aluB else old.aluB
    aluOp := if shows 40 then new.aluOp else old.aluOp
    selA := if shows 41 then new.selA else old.selA
    selB := if shows 42 then new.selB else old.selB
    mem := old.mem
    consoleOut := old.consoleOut }

/-- `uop(srcA, srcB, op, dst)` (41_fabric.md R116), `none` meaning `keep`. A micro-operation that fails its checks
"performs no transfer and changes no state except the fault record" (R114). -/
def uop (srcA srcB : Option BusAddr) (op : Microcode) (dst : BusAddr) (s : State) : Run :=
  match resolveUop s.config srcA srcB dst with
  | some e => .raised (.fabricError e) s
  | none =>
    match commitUop srcA srcB op dst s with
    | (t, none) => .ok t
    | (t, some k) => .raised k (s.partialWrites t)

/-! ## The Execute phase (42_control_unit.md R128) -/

/-- The end of an executed instruction: `fe <- false; cu <- Fetch1`. -/
def State.endExecute (s : State) : State := { s with fe := false, cu := .fetch1 }

/-- `Execute`: evaluate the condition; a false one "ends with no further state mutation", a true one runs the routine,
then clears `fe`; EQ and NE raise DecodeError(ReservedCondition) before any routine runs (R128 to R130). -/
def executePhase (c : Cond) (routine : State → Run) (s : State) : Outcome :=
  match condHolds c s.flags with
  | .reserved => .fault (raiseFault (.decodeError .reservedCondition) s)
  | .holds false => .next { s with cu := .fetch1 }
  | .holds true => (routine s).finish State.endExecute

end Sys2Proof.Machine
end

