-- ==== Sys2Proof/Machine/ControlUnit.lean ====
section
/-! DEFINITION. Sys2Proof/Machine/ControlUnit.lean: the Fetch1, Fetch2 and Decode phases (42_control_unit.md R124 to
R126), and placing an instruction where the next fetch finds it. -/

namespace Sys2Proof.Machine

open Sys2Proof

/-- Fetch1 (R124): `MAR <- PC; MDR <- MemRead(MAR, 1); IRA <- MDR; cu <- Fetch2`. -/
def fetch1Pulse (s : State) : Outcome :=
  ((uop (some .pc) none transferA .mar s).andThen (uop none (some .mdr) transferB .ira)).finish
    fun t => { t with cu := .fetch2 }

/-- Fetch2 (R125): `MAR <- PC + 1; MDR <- MemRead(MAR, 1); IRB <- MDR; cu <- Decode`. -/
def fetch2Pulse (s : State) : Outcome :=
  ((uop (some .pc) none aIncrement .mar s).andThen (uop none (some .mdr) transferB .irb)).finish
    fun t => { t with cu := .decode }

/-- `cur <- decode(IRA, IRB)`, which may raise a DecodeError (R126). -/
def decodeCurrent (s : State) : Run :=
  match decode s.config s.ira s.irb with
  | .error e => .raised (.decodeError e) s
  | .ok i => .ok { s with cur := some i }

/-- Decode (R126): `PC <- PC + 1` twice, before the decode checks, then `cu <- Execute`. -/
def decodePulse (s : State) : Outcome :=
  (((uop (some .pc) none aIncrement .pc s).andThen (uop (some .pc) none aIncrement .pc)).andThen decodeCurrent).finish
    fun t => { t with cu := .execute }

/-! ## Placing an instruction (log 9) -/

/-- Stores one Word in the backing memory that holds an address, as the loader does: no register, no ConsoleWrite event
(70_reset_and_hazards.md R166); nothing where no backing word holds it. -/
def State.placeWord (s : State) (a : Word) (v : Word) : State :=
  match resolveAddr s.config.regions a with
  | .error _ => s
  | .ok p => { s with mem := s.mem.write (backingKey p.1 p.2) v }

/-- The two Words of an instruction at PC and PC + 1, the machine being about to fetch them. -/
def State.placeInstr (s : State) (w0 w1 : Word) : State :=
  { (s.placeWord s.pc w0).placeWord (s.pc + 1) w1 with cu := .fetch1, fault := none }

/-- The state a pulse leaves, or the state before it where the pulse stops. -/
def afterPulse (pulse : State → Outcome) (s : State) : State :=
  match pulse s with
  | .next t => t
  | .fault _ => s
  | .refused _ => s

/-- Runs the machine's own Fetch1, Fetch2 and Decode pulses on a state about to fetch, as far as they go: where all
three pass, the next step is the Execute of the fetched instruction; where one stops, the next step is that stop. -/
def State.runToExecute (s : State) : State :=
  let t := afterPulse fetch1Pulse s
  if t.cu = .fetch2 then
    let u := afterPulse fetch2Pulse t
    if u.cu = .decode then afterPulse decodePulse u else u
  else t

end Sys2Proof.Machine
end

