-- ==== Sys2Proof/Machine/AluInstr.lean ====
section
/-! DEFINITION. Sys2Proof/Machine/AluInstr.lean: AOPR and AOPI (43_alu_instructions.md R133, R134). -/

namespace Sys2Proof.Machine

open Sys2Proof

/-- `fe <- true`, then one micro-operation `uop(GPd, srcB, alu, GPd)`: "ALU(op=instr.alu) over (dest, srcB) → dest; flags
enabled" (R133, R134). Operand A is the old destination. -/
def aluRoutine (d : RegCode) (srcB : BusAddr) (alu : Microcode) (s : State) : Run :=
  uop (some (regOperand d)) (some srcB) alu (regOperand d) { s with fe := true }

/-- AOPR (R133). -/
def execAopr (c : Cond) (d r : RegCode) (alu : Microcode) (s : State) : Outcome :=
  executePhase c (aluRoutine d (regOperand r) alu) s

/-- AOPI (R134). Operand B is `imm`, which the routine reads from IRB as the rule writes it (`uop(GPd, IRB, alu, GPd)`,
"imm = IRB"); in Execute the two are the same Word (log 14). -/
def execAopi (c : Cond) (d : RegCode) (alu : Microcode) (_imm : Word) (s : State) : Outcome :=
  executePhase c (aluRoutine d highWordOperand alu) s

end Sys2Proof.Machine
end

