-- ==== Sys2Proof/Machine/ControlTransfer.lean ====
section
/-! DEFINITION. Sys2Proof/Machine/ControlTransfer.lean: JMP, B and NOP (45_control_transfer.md R139 to R142). -/

namespace Sys2Proof.Machine

open Sys2Proof

/-- `PC <- target` by `uop(keep, IRB, TransferB, PC)` (R139). -/
def jumpRoutine (s : State) : Run :=
  uop none (some highWordOperand) transferB .pc s

/-- JMP: "immediate → PC" (R139). The target is the high Word, read from IRB as the rule writes it (log 14). -/
def execJmp (c : Cond) (_target : Word) (s : State) : Outcome :=
  executePhase c jumpRoutine s

/-- B: "identical to JMP" (R140). -/
def execB (c : Cond) (_target : Word) (s : State) : Outcome :=
  executePhase c jumpRoutine s

/-- NOP: no micro-operation; the target is ignored (R141). -/
def execNop (c : Cond) (_target : Word) (s : State) : Outcome :=
  executePhase c Run.ok s

end Sys2Proof.Machine
end

