-- ==== Sys2Proof/Machine/FlagClear.lean ====
section
/-! DEFINITION. Sys2Proof/Machine/FlagClear.lean: CLZ, CLOF, CLNG and the `EXTRA_UNIMPLEMENTED` opcodes
(46_flag_clear.md R143 to R146): recognised, with no execution routine, "an explicit, distinguishable error rather than
silently no-op". -/

namespace Sys2Proof.Machine

open Sys2Proof

/-- `raise UnimplementedOpcode(value)`, with no other effect (R143 to R146). -/
def unimplementedRoutine (v : OpValue) (s : State) : Run := .raised (.unimplementedOpcode v) s

/-- CLZ (R143): `flags.zero` is not cleared. -/
def execClz (c : Cond) (_d _r : RegCode) (_alu : Microcode) (s : State) : Outcome :=
  executePhase c (unimplementedRoutine s.config.opcodes.clz) s

/-- CLOF (R144): `flags.overflow` and `flags.carry` are not cleared. -/
def execClof (c : Cond) (_d _r : RegCode) (_alu : Microcode) (s : State) : Outcome :=
  executePhase c (unimplementedRoutine s.config.opcodes.clof) s

/-- CLNG (R145): `flags.negative` is not cleared. -/
def execClng (c : Cond) (_d _r : RegCode) (_alu : Microcode) (s : State) : Outcome :=
  executePhase c (unimplementedRoutine s.config.opcodes.clng) s

/-- An opcode of `EXTRA_UNIMPLEMENTED` (R146). -/
def execExtra (e : ExtraInstr) (s : State) : Outcome :=
  executePhase e.cond (unimplementedRoutine e.value) s

end Sys2Proof.Machine
end

