-- ==== Sys2Proof/Machine/MemoryInstr.lean ====
section
/-! DEFINITION. Sys2Proof/Machine/MemoryInstr.lean: LOADR, STORR, LOAD and STORE (44_memory_instructions.md R135 to
R138). The alu field is ignored. -/

namespace Sys2Proof.Machine

open Sys2Proof

/-- `MAR <- x[GPr]` by `uop(GPr, keep, TransferA, MAR)`: the register-indirect address (R135, R136). -/
def addressFromReg (r : RegCode) (s : State) : Run :=
  uop (some (regOperand r)) none transferA .mar s

/-- `MAR <- imm` by `uop(keep, IRB, TransferB, MAR)`: the absolute address (R137, R138). -/
def addressFromImm (s : State) : Run :=
  uop none (some highWordOperand) transferB .mar s

/-- `MDR <- MemRead(MAR, 1); x[GPd] <- MDR` by `uop(keep, MDR, TransferB, GPd)` (R135, R137). -/
def loadIntoReg (d : RegCode) (s : State) : Run :=
  uop none (some .mdr) transferB (regOperand d) s

/-- `MDR <- x[GPd]; MemWrite(MAR, 1, x[GPd])` by `uop(GPd, keep, TransferA, MDR)` (R136, R138). -/
def storeFromReg (d : RegCode) (s : State) : Run :=
  uop (some (regOperand d)) none transferA .mdr s

/-- LOADR: "src → MAR; MDR → dest" (R135). -/
def execLoadr (c : Cond) (d r : RegCode) (_alu : Microcode) (s : State) : Outcome :=
  executePhase c (fun t => (addressFromReg r t).andThen (loadIntoReg d)) s

/-- STORR: "src → MAR; dest → MDR" (R136). -/
def execStorr (c : Cond) (d r : RegCode) (_alu : Microcode) (s : State) : Outcome :=
  executePhase c (fun t => (addressFromReg r t).andThen (storeFromReg d)) s

/-- LOAD: "immediate → MAR; MDR → dest" (R137). The address is `imm`, read from IRB as the rule writes it (log 14). -/
def execLoad (c : Cond) (d : RegCode) (_alu : Microcode) (_imm : Word) (s : State) : Outcome :=
  executePhase c (fun t => (addressFromImm t).andThen (loadIntoReg d)) s

/-- STORE: "immediate → MAR; dest → MDR" (R138). The address is `imm`, read from IRB as the rule writes it (log 14). -/
def execStore (c : Cond) (d : RegCode) (_alu : Microcode) (_imm : Word) (s : State) : Outcome :=
  executePhase c (fun t => (addressFromImm t).andThen (storeFromReg d)) s

end Sys2Proof.Machine
end

