-- ==== Sys2Proof/Machine/Dispatch.lean ====
section
/-! DEFINITION. Sys2Proof/Machine/Dispatch.lean: "dispatch by (type, opcode) to a microcode routine"
(42_control_unit.md R131). -/

namespace Sys2Proof.Machine

open Sys2Proof

def exec (i : Instr) (s : State) : Host.Outcome State Fault Refusal :=
  match i with
  | .nop c t => Sys2Proof.Machine.execNop c t s
  | .jmp c t => Sys2Proof.Machine.execJmp c t s
  | .b c t => Sys2Proof.Machine.execB c t s
  | .aopr c d r a => Sys2Proof.Machine.execAopr c d r a s
  | .aopi c d a imm => Sys2Proof.Machine.execAopi c d a imm s
  | .loadr c d r a => Sys2Proof.Machine.execLoadr c d r a s
  | .storr c d r a => Sys2Proof.Machine.execStorr c d r a s
  | .load c d a imm => Sys2Proof.Machine.execLoad c d a imm s
  | .store c d a imm => Sys2Proof.Machine.execStore c d a imm s
  | .clz c d r a => Sys2Proof.Machine.execClz c d r a s
  | .clof c d r a => Sys2Proof.Machine.execClof c d r a s
  | .clng c d r a => Sys2Proof.Machine.execClng c d r a s

end Sys2Proof.Machine
end

