-- ==== Sys2Proof/Machine/Step.lean ====
section
/-! DEFINITION. Sys2Proof/Machine/Step.lean: one step is one rising clock edge (42_control_unit.md R122, R132, log 10). -/

namespace Sys2Proof.Machine

open Sys2Proof

/-- The Execute pulse: the routine of the current instruction (42_control_unit.md R128, R131). -/
def executePulse (s : State) : Outcome :=
  match s.cur with
  | some (.core i) => exec i s
  | some (.extra e) => execExtra e s
  | none => .fault (.noCurrentInstruction s)

/-- "One clock pulse advances exactly one CU state transition"; a faulted state has no step (R132). -/
def step (s : State) : Host.Outcome State Fault Refusal :=
  match s.fault with
  | some _ => .fault (.alreadyFaulted s)
  | none =>
    match s.cu with
    | .fetch1 => fetch1Pulse s
    | .fetch2 => fetch2Pulse s
    | .decode => decodePulse s
    | .execute => executePulse s

/-- `s` with the instruction whose bits are `w` stored at PC and PC + 1 and already fetched and decoded by the machine's
own pulses, so that the very next step runs it (log 9). -/
def State.withFetchWord (s : State) (nbits w : Nat) : State :=
  (s.placeInstr (tableLowWord nbits w) (tableHighWord nbits w)).runToExecute

end Sys2Proof.Machine
end

