-- ==== Sys2Proof/Machine/Assembler.lean ====
section
/-! DEFINITION. Sys2Proof/Machine/Assembler.lean: the assembler's text and its expansion into Words (30_encoding.md R75
to R83). Not part of the hardware (00_scope.md R6): no step calls it (log 18). -/

namespace Sys2Proof.Machine

open Sys2Proof

/-! ## Lines and tokens (R75, R76) -/

/-- "Input: newline-delimited text": the lines, without their line feeds. -/
def splitLines : List Char → List (List Char)
  | [] => [[]]
  | c :: cs =>
    if c = '\n' then [] :: splitLines cs
    else
      match splitLines cs with
      | [] => [[c]]
      | l :: ls => (c :: l) :: ls

/-- "`;` starts a line comment": everything from the first `;` is removed. -/
def stripComment (l : List Char) : List Char := l.takeWhile (fun c => c != ';')

/-- What ends a token: white space or a comma. -/
def isSeparator (c : Char) : Bool := c.isWhitespace || c == ','

/-- Tokens: "maximal run[s] of characters that are neither whitespace nor `,`; empty tokens are dropped" (R76). -/
def tokensFrom : List Char → List Char → List (List Char)
  | cur, [] => if cur.isEmpty then [] else [cur.reverse]
  | cur, c :: cs =>
    if isSeparator c then (if cur.isEmpty then tokensFrom [] cs else cur.reverse :: tokensFrom [] cs)
    else tokensFrom (c :: cur) cs

/-- "A line that is then empty or only whitespace is skipped": nothing but white space before its comment (R75). -/
def isBlankLine (l : List Char) : Bool := (stripComment l).all Char.isWhitespace

/-- The tokens of one line, comment removed. -/
def lineTokens (l : List Char) : List (List Char) := tokensFrom [] (stripComment l)

/-! ## Mnemonic, condition suffix, literals, registers (R76 to R78) -/

/-- The eight condition suffixes (R77). -/
def suffixCond (s : List Char) : Option Cond :=
  if s = ['O', 'F'] then some .of
  else if s = ['N', 'O'] then some .no
  else if s = ['Z', 'R'] then some .zr
  else if s = ['N', 'Z'] then some .nz
  else if s = ['N', 'G'] then some .ng
  else if s = ['N', 'N'] then some .nn
  else if s = ['E', 'Q'] then some .eq
  else if s = ['N', 'E'] then some .ne
  else none

/-- "If the mnemonic's last two characters match one of the 8 known condition suffixes, split it off as Condition, else
Condition = ALWAYS" (R77). -/
def splitMnemonic (m : List Char) : List Char × Cond :=
  match suffixCond (m.drop (m.length - 2)) with
  | some c => (m.take (m.length - 2), c)
  | none => (m, .always)

/-- The value of a digit; hexadecimal digits in either case (R78). -/
def digitValue (c : Char) : Option Nat :=
  if '0' ≤ c ∧ c ≤ '9' then some (c.toNat - '0'.toNat)
  else if 'a' ≤ c ∧ c ≤ 'f' then some (c.toNat - 'a'.toNat + 10)
  else if 'A' ≤ c ∧ c ≤ 'F' then some (c.toNat - 'A'.toNat + 10)
  else none

/-- Digits in a base, most significant first, after `acc`. -/
def digitsFrom (base acc : Nat) : List Char → Option Nat
  | [] => some acc
  | c :: cs =>
    match digitValue c with
    | none => none
    | some v => if v < base then digitsFrom base (acc * base + v) cs else none

/-- An unsigned number in a base: at least one digit, and it "must fit in a Word" (R78). -/
def parseIn (base : Nat) (ds : List Char) : Option Word :=
  if ds.isEmpty then none
  else
    match digitsFrom base 0 ds with
    | none => none
    | some n => if n < 2 ^ 32 then some (BitVec.ofNat 32 n) else none

/-- "prefix `0b` → base 2, `0x` → base 16, otherwise base 10" (R78). -/
def parseLiteral : List Char → Option Word
  | '0' :: 'b' :: ds => parseIn 2 ds
  | '0' :: 'x' :: ds => parseIn 16 ds
  | ds => parseIn 10 ds

/-- The assembler's name of GPk. -/
def gpName (k : Nat) : List Char := 'G' :: 'P' :: Nat.toDigits 10 k

/-- The code of the register a token names, the codes being those of GPk, GPk+1, … (R76). -/
def findReg (t : List Char) (k : Nat) : List RegCode → Option RegCode
  | [] => none
  | c :: cs => if t = gpName k then some c else findReg t (k + 1) cs

/-- "Register-name tokens are matched exactly, case-sensitively, against `GP1` .. `GP<N_GPR>`" (R76). -/
def parseReg (k : Config) (t : List Char) : Option RegCode := findReg t 1 k.regCodes

/-! ## Lines (R79, R80, R82) -/

/-- What is wrong with a line (R82). -/
inductive AsmProblem where
  | unknownMnemonic
  | unknownRegister
  | operandCount
  | notALiteral
deriving DecidableEq, Repr

/-- The shapes of R80's table. -/
inductive AsmForm where
  | aluRegOrImm (alu : Microcode)
  | aluOneReg (alu : Microcode)
  | load | store | loadr | storr | jmp | b | nop
deriving DecidableEq, Repr

/-- The base mnemonics and the microcodes R80 fixes. -/
def asmForm (m : List Char) : Option AsmForm :=
  if m = ['M', 'O', 'V'] then some (.aluRegOrImm transferB)
  else if m = ['A', 'D', 'D'] then some (.aluRegOrImm additionSigned)
  else if m = ['S', 'U', 'B'] then some (.aluRegOrImm abSubtractionSigned)
  else if m = ['A', 'N', 'D'] then some (.aluRegOrImm logicalAnd)
  else if m = ['O', 'R'] then some (.aluRegOrImm logicalOr)
  else if m = ['I', 'N', 'C'] then some (.aluOneReg aIncrement)
  else if m = ['D', 'E', 'C'] then some (.aluOneReg aDecrement)
  else if m = ['L', 'O', 'A', 'D'] then some .load
  else if m = ['S', 'T', 'O', 'R', 'E'] then some .store
  else if m = ['L', 'O', 'A', 'D', 'R'] then some .loadr
  else if m = ['S', 'T', 'O', 'R', 'R'] then some .storr
  else if m = ['J', 'M', 'P'] then some .jmp
  else if m = ['B'] then some .b
  else if m = ['N', 'O', 'P'] then some .nop
  else none

/-- A register operand and an absolute address (R82). -/
def regAndAddress (k : Config) (d n : List Char) (f : RegCode → Word → Instr) : Except AsmProblem Instr :=
  match parseReg k d, parseLiteral n with
  | none, _ => .error .unknownRegister
  | some _, none => .error .notALiteral
  | some r, some a => .ok (f r a)

/-- Two register operands. -/
def twoRegs (k : Config) (d s : List Char) (f : RegCode → RegCode → Instr) : Except AsmProblem Instr :=
  match parseReg k d, parseReg k s with
  | some r, some q => .ok (f r q)
  | _, _ => .error .unknownRegister

/-- A jump target, which must be a literal (R82). -/
def jumpTarget (n : List Char) (f : Word → Instr) : Except AsmProblem Instr :=
  match parseLiteral n with
  | none => .error .notALiteral
  | some a => .ok (f a)

/-- MOV, ADD, SUB, AND, OR: "the type is Immediate if the second operand parses as a numeric literal, else Register"
(R79). -/
def aluRegOrImmLine (k : Config) (c : Cond) (alu : Microcode) (d x : List Char) : Except AsmProblem Instr :=
  match parseLiteral x with
  | some n => regAndAddress k d x (fun r _ => .aopi c r alu n)
  | none => twoRegs k d x (fun r q => .aopr c r q alu)

/-- The expansion of one line's operands (R80). -/
def expandForm (k : Config) (c : Cond) : AsmForm → List (List Char) → Except AsmProblem Instr
  | .aluRegOrImm alu, [d, x] => aluRegOrImmLine k c alu d x
  | .aluOneReg alu, [d] =>
    match parseReg k d with
    | none => .error .unknownRegister
    | some r => .ok (.aopi c r alu 0)
  | .load, [d, n] => regAndAddress k d n (fun r a => .load c r 0 a)
  | .store, [d, n] => regAndAddress k d n (fun r a => .store c r 0 a)
  | .loadr, [d, x] => twoRegs k d x (fun r q => .loadr c r q 0)
  | .storr, [d, x] => twoRegs k d x (fun r q => .storr c r q 0)
  | .jmp, [n] => jumpTarget n (fun a => .jmp c a)
  | .b, [n] => jumpTarget n (fun a => .b c a)
  | .nop, [] => .ok (.nop c 0)
  | _, _ => .error .operandCount

/-- One line's Instruction: "token 0 uppercased is the mnemonic" (R76). -/
def expandTokens (k : Config) (mnemonic : List Char) (operands : List (List Char)) : Except AsmProblem Instr :=
  let p := splitMnemonic (mnemonic.map Char.toUpper)
  match asmForm p.1 with
  | none => .error .unknownMnemonic
  | some f => expandForm k p.2 f operands

/-! ## The whole source (R81, R82) -/

/-- What assembly answers: all the Words, or EncodingError with the offending line, counted from 1, and no Words. -/
inductive AsmResult where
  | words (ws : List Word)
  | encodingError (line : Nat) (problem : AsmProblem)
deriving DecidableEq, Repr

/-- The Instruction of a line that is not blank. Commas alone leave no token, so no mnemonic: an EncodingError, since
such a line is neither empty nor only white space (R75, R82, log 18). -/
def expandLine (k : Config) (l : List Char) : Except AsmProblem Instr :=
  match lineTokens l with
  | [] => .error .unknownMnemonic
  | m :: operands => expandTokens k m operands

/-- "Each recognized line encodes to exactly 2 Words, appended in program order" (R81); blank lines are skipped (R75). -/
def assembleLines (k : Config) (n : Nat) : List (List Char) → AsmResult
  | [] => .words []
  | l :: ls =>
    if isBlankLine l then assembleLines k (n + 1) ls
    else
      match expandLine k l with
      | .error p => .encodingError n p
      | .ok i =>
        match assembleLines k (n + 1) ls with
        | .words ws => .words ((encode k i).1 :: (encode k i).2 :: ws)
        | .encodingError line p => .encodingError line p

/-- Assembles a source text. -/
def assemble (k : Config) (source : List Char) : AsmResult := assembleLines k 1 (splitLines source)

end Sys2Proof.Machine
end

