-- ==== Sys2Proof/Machine/Loader.lean ====
section
/-! DEFINITION. Sys2Proof/Machine/Loader.lean: the executable container and the launch it leads to
(70_reset_and_hazards.md R164 to R169, R173). A host interface beside the machine: no step calls it (log 18). -/

namespace Sys2Proof.Machine

open Sys2Proof

/-- The six header Words (R164). -/
structure Header where
  version : Word
  ramFirst : Word
  ramLast : Word
  consoleFirst : Word
  consoleLast : Word
  entry : Word
deriving DecidableEq, Repr

/-- Why a load fails, "before any cycle runs" (R165, R166, D35, 20_memory.md R37). -/
inductive LoadError where
  | malformedExecutable
  | versionMismatch
  | refusedRegions
  | addressFault (a : Word)
deriving DecidableEq, Repr

/-- The parameters of a load: `CODEC_VERSION`, `LOAD_BASE` and `ENTRY_POINT` where they differ from their defaults (the
RAM start, header Word 5), `INIT_STATE`, and the other parameters, whose regions the header replaces. -/
structure LoadParams where
  config : Config
  codecVersion : Word
  loadBase : Option Word
  entryPoint : Option Word
  init : InitState
deriving DecidableEq, Repr

/-- `w = b[4k]<<24 | b[4k+1]<<16 | b[4k+2]<<8 | b[4k+3]`: big-endian (R164). -/
def wordOfBytes (b0 b1 b2 b3 : Byte) : Word :=
  (b0.setWidth 32 <<< 24) ||| (b1.setWidth 32 <<< 16) ||| (b2.setWidth 32 <<< 8) ||| b3.setWidth 32

/-- The four bytes of a Word, most significant first (R164). -/
def bytesOfWord (w : Word) : List Byte :=
  [w.extractLsb' 24 8, w.extractLsb' 16 8, w.extractLsb' 8 8, w.extractLsb' 0 8]

/-- The Words of a file, none where its length is not a multiple of 4 (R164). -/
def wordsOfBytes : List Byte → Option (List Word)
  | [] => some []
  | b0 :: b1 :: b2 :: b3 :: bs => (wordsOfBytes bs).map (wordOfBytes b0 b1 b2 b3 :: ·)
  | _ => none

/-- The header and the program Words of a file: at least six Words, and an even number of program Words (R164, R166). -/
def readContainer (file : List Byte) : Except LoadError (Header × List Word) :=
  match wordsOfBytes file with
  | some (v :: r0 :: r1 :: c0 :: c1 :: e :: program) =>
    if program.length % 2 = 0 then .ok (⟨v, r0, r1, c0, c1, e⟩, program) else .error .malformedExecutable
  | _ => .error .malformedExecutable

/-- "The writer emits rule R164's layout exactly, big-endian" (R173). -/
def writeContainer (h : Header) (program : List Word) : List Byte :=
  ([h.version, h.ramFirst, h.ramLast, h.consoleFirst, h.consoleLast, h.entry] ++ program).flatMap bytesOfWord

/-- `REGIONS` from the header: the RAM region, then the console region (20_memory.md R36, R164). -/
def Header.regions (h : Header) : List Region :=
  [Region.ofBounds h.ramFirst h.ramLast .ram, Region.ofBounds h.consoleFirst h.consoleLast .console]

/-- "Program Word `i` goes to address `LOAD_BASE + i`, through the backing memory of the region holding that address",
with no register write and no ConsoleWrite event (R166). -/
def placeProgram (rs : List Region) (m : Memory) (a : Word) : List Word → Except LoadError Memory
  | [] => .ok m
  | w :: ws =>
    match resolveAddr rs a with
    | .error _ => .error (.addressFault a)
    | .ok p => placeProgram rs (m.write (backingKey p.1 p.2) w) (a + 1) ws

/-- The launch state of R168 from a file, or the load failure. The spec orders no two failures (log 18). -/
def load (p : LoadParams) (file : List Byte) : Except LoadError State :=
  match readContainer file with
  | .error e => .error e
  | .ok (h, program) =>
    if h.version ≠ p.codecVersion then .error .versionMismatch
    else if regionsWf h.regions = false then .error .refusedRegions
    else
      match placeProgram h.regions p.init.mem (p.loadBase.getD h.ramFirst) program with
      | .error e => .error e
      | .ok m =>
        .ok { State.launch { p.config with regions := h.regions } (p.entryPoint.getD h.entry) p.init with mem := m }

end Sys2Proof.Machine
end

