-- ==== Sys2Proof/Machine/AssemblerFile.lean ====
section
/-! DEFINITION. Sys2Proof/Machine/AssemblerFile.lean: the executable file the assembler produces, with `CODEC_VERSION` in
its Word 0 (70_reset_and_hazards.md R165). Not part of the hardware (00_scope.md R6): no step calls it (log 18). -/

namespace Sys2Proof.Machine

open Sys2Proof

/-- The header Words 1 to 5 of a file (70_reset_and_hazards.md R164), which no rule says where the assembler takes from:
an argument (log 18). -/
structure FileLayout where
  ramFirst : Word
  ramLast : Word
  consoleFirst : Word
  consoleLast : Word
  entry : Word
deriving DecidableEq, Repr

/-- The header of a file the assembler produces: "The assembler writes `CODEC_VERSION` into Word 0" (R165). -/
def assemblerHeader (codecVersion : Word) (f : FileLayout) : Header :=
  ⟨codecVersion, f.ramFirst, f.ramLast, f.consoleFirst, f.consoleLast, f.entry⟩

/-- What assembling to a file answers: the file's bytes, or EncodingError with the offending line and no file
(30_encoding.md R82). -/
inductive AsmFileResult where
  | file (bytes : List Byte)
  | encodingError (line : Nat) (problem : AsmProblem)
deriving DecidableEq, Repr

/-- Assembles a source text to an executable file: the header, then the Words of R81 (R164, R165, R173). -/
def assembleFile (k : Config) (codecVersion : Word) (f : FileLayout) (source : List Char) : AsmFileResult :=
  match assemble k source with
  | .words ws => .file (writeContainer (assemblerHeader codecVersion f) ws)
  | .encodingError line p => .encodingError line p

end Sys2Proof.Machine
end

