-- ==== Sys2Proof/Safety.lean ====
section
/-! DEFINITION. Sys2Proof/Safety.lean: the terms claims are stated in: the machine's invariant, what a state shows, and
when a run has ended (70_reset_and_hazards.md R171, R172). -/

namespace Sys2Proof.Machine

open Sys2Proof

/-- A condition that holds in a state (42_control_unit.md R129). -/
abbrev CondTrue (c : Cond) (s : State) : Prop := condHolds c s.flags = .holds true

/-- A condition that is false in a state. -/
abbrev CondFalse (c : Cond) (s : State) : Prop := condHolds c s.flags = .holds false

/-- The conditions reserved at Execute (42_control_unit.md R129). -/
abbrev CondReserved (c : Cond) : Prop := c = .eq ∨ c = .ne

/-- The Word a general-purpose register code names. -/
abbrev State.reg (s : State) (c : RegCode) : Word := s.gpr[c.toNat]

/-- The model's read of one memory word: the address's value, or that nothing has written it, or that no region's
backing memory holds it. -/
abbrev State.wordAt (s : State) (a : Word) : Except FaultKind Word := memRead s a

/-- Whether some region's backing memory holds an address (20_memory.md R38, R39). -/
def backed (rs : List Region) (a : Word) : Bool :=
  match resolveAddr rs a with
  | .ok _ => true
  | .error _ => false

/-- Whether an address lies in the console region (20_memory.md R46). -/
def inConsole (rs : List Region) (a : Word) : Bool :=
  match resolveAddr rs a with
  | .ok p => p.1.kind == .console
  | .error _ => false

/-- The events a store of `v` to `a` emits (20_memory.md R46). -/
def storeEvents (rs : List Region) (a v : Word) : List Word := if inConsole rs a then [v] else []

/-- What every step keeps: well-formed parameters, memory in canonical form and inside the backing memories, the two
disciplines of 70_reset_and_hazards.md R175 between pulses (`fe` false, `selW` VOID), no fault record, `carry` equal to
`overflow` (40_alu.md R91), and in Execute a current instruction that is the decode of IRA and IRB (10_state.md R31). -/
structure MachineInv (s : State) : Prop where
  config : s.config.wf = true
  memory : s.mem.wf = true
  memoryBacked : ∀ c ∈ s.mem, backed s.config.regions (BitVec.ofNat 32 c.1) = true
  flagEnable : s.fe = false
  writeback : s.selW = .void
  noFault : s.fault = none
  carry : s.flags.carry = s.flags.overflow
  current : s.cu = .execute → ∃ i, s.cur = some i ∧ decode s.config s.ira s.irb = .ok i

/-- `k` steps of the machine from a state. -/
abbrev runSteps (k : Nat) (s : State) : Outcome := Host.Core.run ⟨State, Fault, Refusal, step, State.reset⟩ k s

/-- The final states of a run: `cu = Fetch1` with `PC = STOP_PC`, where a claim declares the run ended
(70_reset_and_hazards.md R172). A faulted state "is never a final state" (60_exceptions.md R150). -/
def State.atStop (s : State) (stopPc : Word) : Bool := s.fault.isNone && s.cu == .fetch1 && s.pc == stopPc

/-- A run that has not faulted after `k` pulses. -/
def SafeFor (k : Nat) (s : State) : Prop := ∃ t, runSteps k s = .next t

/-- The characters the external sink prints, `CONSOLE_ECHO` being open (60_exceptions.md R160). -/
def State.echoed (s : State) : List Char := s.consoleOut.filterMap Config.consoleEcho

/-- The kind of a fault of 60_exceptions.md R148; none for a stop of `step` itself. -/
def Fault.kind : Fault → Option FaultKind
  | .decodeError e _ => some (.decodeError e)
  | .unimplementedOpcode v _ => some (.unimplementedOpcode v)
  | .addressFault a _ => some (.addressFault a)
  | .fabricError e _ => some (.fabricError e)
  | .unwrittenRead a _ => some (.unwrittenRead a)
  | .alreadyFaulted _ => none
  | .noCurrentInstruction _ => none

/-- The state a fault hands the driver. -/
def Fault.stopped : Fault → State
  | .decodeError _ t => t
  | .unimplementedOpcode _ t => t
  | .addressFault _ t => t
  | .fabricError _ t => t
  | .unwrittenRead _ t => t
  | .alreadyFaulted t => t
  | .noCurrentInstruction t => t

/-- The same machine with other constant registers (10_state.md R22). -/
def State.withConstRegs (s : State) (consts : List Word) : State :=
  { s with config := { s.config with constRegs := consts } }

/-- A result beside the flags R88 to R91 give it when `o` says whether `overflow` is 1: `carry` is the same, and `zero`
and `negative` are read from the result. -/
def withFlags (w : Word) (o : Prop) [Decidable o] : Word × Flags :=
  (w, ⟨decide o, decide (w = 0), decide (2 ^ 31 ≤ w.toNat), decide o⟩)

/-- An outcome that is a fault of this kind. -/
def Faults (o : Outcome) (k : FaultKind) : Prop := ∃ f, o = .fault f ∧ f.kind = some k

end Sys2Proof.Machine
end

