-- ==== Sys2Proof/Certificates/Slice0/Obligations.lean ====
section
/-! DEFINITION. Sys2Proof/Certificates/Slice0/Obligations.lean: what is claimed of the model, for the provers.
`CondTrue`, `CondFalse` and `CondReserved` are the three results of the condition (42_control_unit.md R129);
`s.wordAt a` is MemRead of one memory word; `Faults o k` says that `o` is a fault of kind `k`. -/

open Sys2Proof Sys2Proof.Machine

/-! ## The codec (30_encoding.md) -/

/-- R73: decode of encode is the Instruction, for every well-formed Instruction of every opcode (`EXTRA_UNIMPLEMENTED`
ones too) under every well-formed parameter value; and encode of decode is the two Words exactly when their reserved
bits are zero, which the policy `Fault` makes sure of. -/
def Obligations.CodecRoundTrip : Prop :=
  ∀ k : Config, k.wf = true →
    (∀ d : Decoded, d.wf k = true → decode k (encodeDecoded k d).1 (encodeDecoded k d).2 = .ok d) ∧
    (∀ w0 w1 d, decode k w0 w1 = .ok d →
      d.wf k = true ∧ (encodeDecoded k d = (w0, w1) ↔ reservedSet d.type w0 w1 = false)) ∧
    (k.reservedBits = .fault → ∀ w0 w1 d, decode k w0 w1 = .ok d →
      reservedSet d.type w0 w1 = false ∧ encodeDecoded k d = (w0, w1))

/-- R61 to R64, R70: the opcode is checked first and the condition second; each error means exactly that its field is
in no table. EQ and NE decode without error. -/
def Obligations.DecodeErrorsNameTheirField : Prop :=
  ∀ k : Config, k.wf = true → ∀ w0 w1 : Word,
    (decode k w0 w1 = .error .unknownOpcode ↔
      (∀ op, k.opcodes.code op ≠ opField w0) ∧ ∀ e ∈ k.extra, e.1 ≠ opField w0) ∧
    (decode k w0 w1 = .error .unknownCondition ↔
      ((∃ op, k.opcodes.code op = opField w0) ∨ ∃ e ∈ k.extra, e.1 = opField w0) ∧
      ∀ c, k.conds.code c ≠ condField w0) ∧
    decode k w0 w1 ≠ .error .reservedCondition

/-- R71: an encoded table instruction is accepted exactly when the register fields its opcode uses name general-purpose
registers, and is UnknownRegister otherwise; unused register fields are not checked. -/
def Obligations.RegisterFieldsCheckedWhereUsed : Prop :=
  ∀ k : Config, k.wf = true → ∀ i : Instr,
    decode k (encode k i).1 (encode k i).2
      = if i.usedRegs.all (fun c => k.regCodes.contains c) then .ok (.core i) else .error .unknownRegister

/-- R67, R70: an otherwise decodable pair with a reserved bit set is ReservedBitsSet under `Fault`, and under `Ignore` it
is the Instruction its other fields give. A pair that is not decodable has the same error under both: the reserved bits
are checked last, after opcode, condition and registers. -/
def Obligations.ReservedBitsPolicyDecides : Prop :=
  ∀ (k : Config) (w0 w1 : Word),
    (∀ d : Decoded, decode { k with reservedBits := .ignore } w0 w1 = .ok d →
      decode { k with reservedBits := .fault } w0 w1
        = if reservedSet d.type w0 w1 then .error .reservedBitsSet else .ok d) ∧
    (∀ e : DecodeError, decode { k with reservedBits := .ignore } w0 w1 = .error e →
      decode { k with reservedBits := .fault } w0 w1 = .error e ∧ e ≠ .reservedBitsSet)

/-- One pair of Words of each opcode, written out from the encoding tables (R56 to R59, R61, R64), decodes to the
instruction it stands for. -/
def Obligations.WrittenOutWordsDecode : Prop :=
  decodeTableWord 64 0x0000009900000000 = some (.nop .always 0x99) ∧
  decodeTableWord 64 0x0000123404000000 = some (.jmp .always 0x1234) ∧
  decodeTableWord 64 0x0000001009000000 = some (.b .nz 0x10) ∧
  decodeTableWord 64 0x000000000C483080 = some (.aopr .of 4 3 0x02) ∧
  decodeTableWord 64 0x0000000011887000 = some (.aopi .nn 4 0x0E 0) ∧
  decodeTableWord 64 0x0000000014022000 = some (.loadr .always 1 2 0) ∧
  decodeTableWord 64 0x0000000019481000 = some (.storr .ng 4 1 0) ∧
  decodeTableWord 64 0x000000101C060000 = some (.load .always 3 0 0x10) ∧
  decodeTableWord 64 0x000000FF20C20000 = some (.store .zr 1 0 0xFF) ∧
  decodeTableWord 64 0x00000000243FF000 = some (.clz .always 31 31 0) ∧
  decodeTableWord 64 0x0000000028000000 = some (.clof .always 0 0 0) ∧
  decodeTableWord 64 0x000000002C800000 = some (.clng .no 0 0 0) ∧
  decodeTableWord 64 0x0000000030000000 = none

/-! ## The ALU (40_alu.md) -/

/-- R88 to R91: `overflow` is the carry out of the exact sum of the preprocessed operands, and only when `f` is set;
`zero` and `negative` read the final result; `carry` is `overflow`. The signed overflow 0x7FFFFFFF + 1 is none. -/
def Obligations.AluFlagsComeFromTheExactSum : Prop :=
  (∀ (x y : Word) (op : Microcode),
    ((compute x y op).2.overflow = true ↔ microF op = true ∧ 2 ^ 32 ≤ (aluX op x).toNat + (aluY op y).toNat) ∧
    ((compute x y op).2.zero = true ↔ (compute x y op).1 = 0) ∧
    ((compute x y op).2.negative = true ↔ 2 ^ 31 ≤ (compute x y op).1.toNat) ∧
    (compute x y op).2.carry = (compute x y op).2.overflow) ∧
  (compute 0x7FFFFFFF 1 additionSigned).2.overflow = false

/-- R96 to R104: the nine arithmetic microcodes, each with its 6-bit value: the result modulo 2^32, and exactly when
`overflow` (and so `carry`) is 1; `zero` and `negative` are those of the result. -/
def Obligations.ArithmeticMicrocodes : Prop :=
  ∀ a b : Word,
    compute a b 0x02 = withFlags (a + b) (2 ^ 32 ≤ a.toNat + b.toNat) ∧
    compute a b 0x13 = withFlags (a - b) (a.toNat < b.toNat) ∧
    compute a b 0x07 = withFlags (b - a) (b.toNat < a.toNat) ∧
    compute a b 0x0F = withFlags (-a) (a ≠ 0) ∧
    compute a b 0x33 = withFlags (-b) (b ≠ 0) ∧
    compute a b 0x1F = withFlags (a + 1) (a ≠ 0xFFFFFFFF) ∧
    compute a b 0x37 = withFlags (b + 1) (b ≠ 0xFFFFFFFF) ∧
    compute a b 0x0E = withFlags (a - 1) (a ≠ 0) ∧
    compute a b 0x32 = withFlags (b - 1) (b ≠ 0)

/-- R94, R95, R105 to R108: the six transfer and logic microcodes, none of which can set `overflow`. -/
def Obligations.TransferAndLogicMicrocodes : Prop :=
  ∀ a b : Word,
    compute a b 0x0C = withFlags a False ∧
    compute a b 0x30 = withFlags b False ∧
    compute a b 0x00 = withFlags (a &&& b) False ∧
    compute a b 0x15 = withFlags (a ||| b) False ∧
    compute a b 0x0D = withFlags (~~~a) False ∧
    compute a b 0x31 = withFlags (~~~b) False

/-- R110: a microcode with `zx` set gives the same result and flags for every `x`, and one with `zy` set for every
`y`. -/
def Obligations.ZeroedOperandIsIgnored : Prop :=
  (∀ (op : Microcode) (x x' y : Word), op.getLsbD 5 = true → compute x y op = compute x' y op) ∧
  (∀ (op : Microcode) (x y y' : Word), op.getLsbD 3 = true → compute x y op = compute x y' op)

/-! ## The memory-management unit (20_memory.md) -/

/-- R38: "the first region whose range contains `addr` wins", with `addr - start`; where none does, every access is
AddressFault, and the access writes nothing. -/
def Obligations.FirstContainingRegionWins : Prop :=
  (∀ (rs : List Region) (a rel : Word) (r : Region), translateAddr rs a = some (r, rel) ↔
    ∃ before after, rs = before ++ r :: after ∧ (∀ q ∈ before, ¬ (q.first ≤ a ∧ a ≤ q.last)) ∧
      r.first ≤ a ∧ a ≤ r.last ∧ rel = a - r.first) ∧
  (∀ (s : State) (a : Word), (∀ r ∈ s.config.regions, ¬ (r.first ≤ a ∧ a ≤ r.last)) →
    memRead s a = .error (.addressFault a) ∧ ∀ v, memWrite s a v = .error (.addressFault a))

/-- R39: a relative address not below the backing word count is AddressFault "even though `translate` found a region",
for reads and writes; below it, a write succeeds and a read never is an AddressFault. -/
def Obligations.BackingSizeBoundsTheAccess : Prop :=
  ∀ (s : State) (a rel : Word) (r : Region), translateAddr s.config.regions a = some (r, rel) →
    (r.size ≤ rel.toNat →
      memRead s a = .error (.addressFault a) ∧ ∀ v, memWrite s a v = .error (.addressFault a)) ∧
    (rel.toNat < r.size →
      memRead s a ≠ .error (.addressFault a) ∧ ∀ v, ∃ t, memWrite s a v = .ok t)

/-! ## The fabric (41_fabric.md) -/

/-- R92, R113, R115 to R118: a completed micro-operation latches the old value of each source it selects and keeps the
latch of a bus it does not, writes its destination with `compute` of the two latches and no other cell, commits that
result's four flags exactly when `fe` is true, and leaves the Writeback destination at VOID. MDR, which is read and
written with memory, is the subject of `MemoryIsReachedThroughMdr`. -/
def Obligations.MicroOperationWritesOnceAndCommitsOnce : Prop :=
  ∀ (srcA srcB : Option BusAddr) (op : Microcode) (dst : BusAddr) (s t : State),
    uop srcA srcB op dst s = .ok t →
      (∀ r, srcA = some r → t.selA = r ∧ (r ≠ .mdr → t.aluA = s.readCell r)) ∧
      (∀ r, srcB = some r → t.selB = r ∧ (r ≠ .mdr → t.aluB = s.readCell r)) ∧
      (srcA = none → t.selA = s.selA ∧ t.aluA = s.aluA) ∧ (srcB = none → t.selB = s.selB ∧ t.aluB = s.aluB) ∧
      (dst ≠ .void → t.readCell dst = (compute t.aluA t.aluB op).1) ∧
      (∀ r, r ≠ dst → r ≠ .mdr → t.readCell r = s.readCell r) ∧
      t.flags = (if s.fe then (compute t.aluA t.aluB op).2 else s.flags) ∧
      t.fe = s.fe ∧ t.aluOp = op ∧ t.selW = .void ∧
      t.config = s.config ∧ t.cu = s.cu ∧ t.cur = s.cur ∧ t.fault = s.fault

/-- R45, R21, R20: a completed micro-operation writes memory only where its destination is MDR, one Word at MAR, with the
console event of R46; a source MDR supplies the Word read at MAR; and MDR itself changes in no other way. -/
def Obligations.MemoryIsReachedThroughMdr : Prop :=
  ∀ (srcA srcB : Option BusAddr) (op : Microcode) (dst : BusAddr) (s t : State),
    uop srcA srcB op dst s = .ok t →
      (dst ≠ .mdr → t.mem = s.mem ∧ t.consoleOut = s.consoleOut) ∧
      (dst = .mdr → t.mar = s.mar ∧ t.mem = s.mem.write s.mar.toNat t.mdr ∧
        t.consoleOut = s.consoleOut ++ storeEvents s.config.regions s.mar t.mdr) ∧
      (srcA = some .mdr → s.wordAt s.mar = .ok t.aluA) ∧
      (srcB = some .mdr → s.wordAt s.mar = .ok t.aluB) ∧
      (srcA ≠ some .mdr → srcB ≠ some .mdr → dst ≠ .mdr → t.mdr = s.mdr)

/-- R15, R24, R112, R114: a micro-operation that selects an address naming no register cell is
FabricError(IllegalAddress); one that selects only cells, but VOID as a source or a constant register as its
destination, is FabricError(AccessViolation); both change no state. Every other one passes the checks. That the
AccessViolation of R15 and R24 holds although those cells are off the whitelist too, and that IllegalAddress comes first
where both defects are present, is the model's reading (log 13): the pseudocode of R116 checks the whitelists first. -/
def Obligations.IllegalSelectionChangesNothing : Prop :=
  ∀ (srcA srcB : Option BusAddr) (op : Microcode) (dst : BusAddr) (s : State),
    let noCell : BusAddr → Prop := fun r =>
      (∃ c, r = .gp c ∧ s.config.isGpr c = false) ∨ (∃ n, r = .const n ∧ s.config.constRegs.length ≤ n)
    let someNoCell := ∃ r, (srcA = some r ∨ srcB = some r ∨ dst = r) ∧ noCell r
    let badAccess := srcA = some .void ∨ srcB = some .void ∨ ∃ n, dst = .const n
    (someNoCell → uop srcA srcB op dst s = .raised (.fabricError .illegalAddress) s) ∧
    (¬ someNoCell → badAccess → uop srcA srcB op dst s = .raised (.fabricError .accessViolation) s) ∧
    (¬ someNoCell → ¬ badAccess → ∀ e t, uop srcA srcB op dst s ≠ .raised (.fabricError e) t)

/-- R120: no step from a state that meets the invariant ends in a FabricError, whatever the parameters. -/
def Obligations.DecodedInstructionsRaiseNoFabricError : Prop :=
  ∀ s : State, MachineInv s → ∀ f, step s = .fault f → ∀ e, f.kind ≠ some (.fabricError e)

/-! ## Fetch and Decode (42_control_unit.md) -/

/-- R124: Fetch1. Where the Word at PC can be read, `MAR <- PC; MDR <- MemRead(PC, 1); IRA <- MDR` and `cu` moves to
Fetch2; the hidden latches and selections hold what the two micro-operations fed, and nothing else changes. Where it
cannot, the step is the fault of the MemRead (AddressFault(PC) where no backing word holds PC, else UnwrittenRead), with
MAR already PC and flags and memory as they were. -/
def Obligations.FetchOneLoadsIra : Prop :=
  ∀ s : State, s.fault = none → s.cu = .fetch1 → s.fe = false →
    (∀ w, s.wordAt s.pc = .ok w →
      step s = .next { s with
        mar := s.pc, mdr := w, ira := w, cu := .fetch2
        aluA := s.pc, selA := .pc, aluB := w, selB := .mdr, aluOp := transferB, selW := .void }) ∧
    (∀ k, s.wordAt s.pc = .error k →
      (k = .addressFault s.pc ∧ backed s.config.regions s.pc = false ∨
        k = .unwrittenRead s.pc ∧ s.mem.read s.pc.toNat = none) ∧
      ∃ f, step s = .fault f ∧ f.kind = some k ∧ f.stopped.mar = s.pc ∧ f.stopped.cu = .fetch1 ∧
        f.stopped.pc = s.pc ∧ f.stopped.flags = s.flags ∧ f.stopped.mem = s.mem)

/-- R125: Fetch2, the same at `PC + 1` (mod 2^32) into IRB; PC itself is unchanged. -/
def Obligations.FetchTwoLoadsIrb : Prop :=
  ∀ s : State, s.fault = none → s.cu = .fetch2 → s.fe = false →
    (∀ w, s.wordAt (s.pc + 1) = .ok w →
      step s = .next { s with
        mar := s.pc + 1, mdr := w, irb := w, cu := .decode
        aluA := s.pc, selA := .pc, aluB := w, selB := .mdr, aluOp := transferB, selW := .void }) ∧
    (∀ k, s.wordAt (s.pc + 1) = .error k →
      (k = .addressFault (s.pc + 1) ∧ backed s.config.regions (s.pc + 1) = false ∨
        k = .unwrittenRead (s.pc + 1) ∧ s.mem.read (s.pc + 1).toNat = none) ∧
      ∃ f, step s = .fault f ∧ f.kind = some k ∧ f.stopped.mar = s.pc + 1 ∧ f.stopped.cu = .fetch2 ∧
        f.stopped.pc = s.pc ∧ f.stopped.ira = s.ira ∧ f.stopped.flags = s.flags ∧ f.stopped.mem = s.mem)

/-- R126: Decode. `PC <- PC + 2` (mod 2^32) before the checks, then `cur <- decode(IRA, IRB)`; a DecodeError leaves PC
already advanced and everything else as the two increments left it. -/
def Obligations.DecodeAdvancesPcThenChecks : Prop :=
  ∀ s : State, s.fault = none → s.cu = .decode → s.fe = false →
    (∀ d, decode s.config s.ira s.irb = .ok d →
      step s = .next { s with
        pc := s.pc + 2, cur := some d, cu := .execute
        aluA := s.pc + 1, selA := .pc, aluOp := aIncrement, selW := .void }) ∧
    (∀ e, decode s.config s.ira s.irb = .error e →
      ∃ f, step s = .fault f ∧ f.kind = some (.decodeError e) ∧
        f.stopped = { s with
          pc := s.pc + 2, aluA := s.pc + 1, selA := .pc, aluOp := aIncrement, selW := .void
          fault := some ⟨.decodeError e, .decode, s.pc + 2, s.ira, s.irb⟩ })

/-- R124 to R128, R131, R132: when the two Words at PC decode to an Instruction `d`, three steps bring the machine to
Execute with `d` current, PC advanced by two and only MAR, MDR, IRA, IRB and the hidden latches and selections touched,
and the fourth step is `exec i` where `d` is a table instruction `i`, `execExtra e` where it is an
`EXTRA_UNIMPLEMENTED` one `e` (R62, R146). -/
def Obligations.StepRunsTheDecodedInstruction : Prop :=
  ∀ (s : State) (d : Decoded) (w0 w1 : Word), s.fault = none → s.fe = false → s.cu = .fetch1 →
    s.wordAt s.pc = .ok w0 → s.wordAt (s.pc + 1) = .ok w1 → decode s.config w0 w1 = .ok d →
    ∃ s1 s2 s3, step s = .next s1 ∧ step s1 = .next s2 ∧ step s2 = .next s3 ∧
      s3 = { s with
        pc := s.pc + 2, mar := s.pc + 1, mdr := w1, ira := w0, irb := w1, cur := some d, cu := .execute
        aluA := s.pc + 1, selA := .pc, aluB := w1, selB := .mdr, aluOp := aIncrement, selW := .void } ∧
      (∀ i, d = .core i → step s3 = exec i s3) ∧ (∀ e, d = .extra e → step s3 = execExtra e s3)

/-- R121: the control unit starts in Fetch1, and its next state is the next phase, whatever the instruction does. -/
def Obligations.PhasesFollowInOrder : Prop :=
  State.reset.cu = .fetch1 ∧
  ∀ s t : State, step s = .next t →
    (s.cu = .fetch1 → t.cu = .fetch2) ∧ (s.cu = .fetch2 → t.cu = .decode) ∧
    (s.cu = .decode → t.cu = .execute) ∧ (s.cu = .execute → t.cu = .fetch1)

/-- R177: after `4 * n` pulses without a fault, the control unit is where it was, `n` instructions later; the pulses in
between are the other phases in order. -/
def Obligations.EveryInstructionTakesFourPulses : Prop :=
  ∀ (n : Nat) (s t : State), s.cu = .fetch1 →
    (runSteps (4 * n) s = .next t → t.cu = .fetch1) ∧
    (runSteps (4 * n + 1) s = .next t → t.cu = .fetch2) ∧
    (runSteps (4 * n + 2) s = .next t → t.cu = .decode) ∧
    (runSteps (4 * n + 3) s = .next t → t.cu = .execute)

/-- R123, R149, R150: from a state that meets the invariant, a step that stops does so with a fault of 60_exceptions.md
R148; it leaves `cu`, the memory, the console events and the parameters alone, records kind, phase, PC, IRA and IRB, and
the faulted state has no step and is no final state of a run, whatever `STOP_PC` is. -/
def Obligations.FaultIsRecordedAndFinal : Prop :=
  ∀ s : State, MachineInv s → ∀ f, step s = .fault f →
    ∃ k, f.kind = some k ∧
      f.stopped.fault = some ⟨k, s.cu, f.stopped.pc, f.stopped.ira, f.stopped.irb⟩ ∧
      f.stopped.cu = s.cu ∧ f.stopped.mem = s.mem ∧ f.stopped.consoleOut = s.consoleOut ∧
      f.stopped.config = s.config ∧ step f.stopped = .fault (.alreadyFaulted f.stopped) ∧
      ∀ stopPc, f.stopped.atStop stopPc = false

/-! ## Execute: conditions (42_control_unit.md R128 to R130) -/

/-- R129: what each condition tests, for every value of the latched flags; no condition reads `carry`; an instruction
with EQ or NE raises DecodeError(ReservedCondition) in every state. -/
def Obligations.ConditionsTestTheirFlag : Prop :=
  (∀ (i : Instr) (s : State), CondReserved i.cond → Faults (exec i s) (.decodeError .reservedCondition)) ∧
  ∀ f : Flags,
    condHolds .always f = .holds true ∧
    condHolds .of f = .holds f.overflow ∧ condHolds .no f = .holds (!f.overflow) ∧
    condHolds .zr f = .holds f.zero ∧ condHolds .nz f = .holds (!f.zero) ∧
    condHolds .ng f = .holds f.negative ∧ condHolds .nn f = .holds (!f.negative) ∧
    condHolds .eq f = .reserved ∧ condHolds .ne f = .reserved

/-- R130: with a false condition every instruction, table or extra, has no effect at all but `cu` moving to Fetch1; with
EQ or NE every instruction raises DecodeError(ReservedCondition) before any routine runs. -/
def Obligations.FalseOrReservedConditionRunsNothing : Prop :=
  (∀ (i : Instr) (s : State), CondFalse i.cond s → exec i s = .next { s with cu := .fetch1 }) ∧
  (∀ (e : ExtraInstr) (s : State), CondFalse e.cond s → execExtra e s = .next { s with cu := .fetch1 }) ∧
  (∀ (i : Instr) (s : State), CondReserved i.cond →
    ∃ f, exec i s = .fault f ∧ f.kind = some (.decodeError .reservedCondition) ∧
      f.stopped = { s with fault := some ⟨.decodeError .reservedCondition, s.cu, s.pc, s.ira, s.irb⟩ }) ∧
  (∀ (e : ExtraInstr) (s : State), CondReserved e.cond →
    ∃ f, execExtra e s = .fault f ∧ f.kind = some (.decodeError .reservedCondition) ∧
      f.stopped = { s with fault := some ⟨.decodeError .reservedCondition, s.cu, s.pc, s.ira, s.irb⟩ })

/-! ## Execute: the routines, each with the whole next state -/

/-- R133: AOPR. With its condition true and both fields naming registers, it answers the state in which GPd is
`compute(old GPd, GPr, alu)`, the flags are that result's, and only the hidden latches, `fe` and `cu` change besides. -/
def Obligations.AoprComputesIntoDest : Prop :=
  ∀ (c : Cond) (d r : RegCode) (alu : Microcode) (s : State),
    CondTrue c s → s.config.isGpr d = true → s.config.isGpr r = true →
    exec (.aopr c d r alu) s = .next { s with
      gpr := s.gpr.set d.toNat (compute (s.reg d) (s.reg r) alu).1
      flags := (compute (s.reg d) (s.reg r) alu).2
      aluA := s.reg d, selA := .gp d, aluB := s.reg r, selB := .gp r, aluOp := alu, selW := .void
      fe := false, cu := .fetch1 }

/-- R134: AOPI, with operand B the immediate, which IRB holds in Execute. -/
def Obligations.AopiComputesIntoDest : Prop :=
  ∀ (c : Cond) (d : RegCode) (alu : Microcode) (imm : Word) (s : State),
    CondTrue c s → s.config.isGpr d = true → s.irb = imm →
    exec (.aopi c d alu imm) s = .next { s with
      gpr := s.gpr.set d.toNat (compute (s.reg d) imm alu).1
      flags := (compute (s.reg d) imm alu).2
      aluA := s.reg d, selA := .gp d, aluB := imm, selB := .irb, aluOp := alu, selW := .void
      fe := false, cu := .fetch1 }

/-- R135: LOADR. `MAR <- GPr; MDR <- MemRead(MAR, 1); GPd <- MDR`, no flag written; where the address cannot be read, the
fault of the MemRead, with MAR already the address. -/
def Obligations.LoadrLoadsThroughRegister : Prop :=
  ∀ (c : Cond) (d r : RegCode) (alu : Microcode) (s : State),
    CondTrue c s → s.config.isGpr d = true → s.config.isGpr r = true → s.fe = false →
    (∀ w, s.wordAt (s.reg r) = .ok w →
      exec (.loadr c d r alu) s = .next { s with
        gpr := s.gpr.set d.toNat w, mar := s.reg r, mdr := w
        aluA := s.reg r, selA := .gp r, aluB := w, selB := .mdr, aluOp := transferB, selW := .void
        fe := false, cu := .fetch1 }) ∧
    (∀ k, s.wordAt (s.reg r) = .error k →
      ∃ f, exec (.loadr c d r alu) s = .fault f ∧ f.kind = some k ∧ f.stopped.mar = s.reg r)

/-- R136: STORR. `MAR <- GPr; MDR <- GPd; MemWrite(MAR, 1, GPd)`, no flag written; a store into the console region also
emits ConsoleWrite(GPd). Where no backing word holds the address, AddressFault, with MAR the address. -/
def Obligations.StorrStoresThroughRegister : Prop :=
  ∀ (c : Cond) (d r : RegCode) (alu : Microcode) (s : State),
    CondTrue c s → s.config.isGpr d = true → s.config.isGpr r = true → s.fe = false →
    (backed s.config.regions (s.reg r) = true →
      exec (.storr c d r alu) s = .next { s with
        mem := s.mem.write (s.reg r).toNat (s.reg d)
        consoleOut := s.consoleOut ++ storeEvents s.config.regions (s.reg r) (s.reg d)
        mar := s.reg r, mdr := s.reg d
        aluA := s.reg d, selA := .gp d, aluOp := transferA, selW := .void, fe := false, cu := .fetch1 }) ∧
    (backed s.config.regions (s.reg r) = false →
      ∃ f, exec (.storr c d r alu) s = .fault f ∧ f.kind = some (.addressFault (s.reg r)) ∧
        f.stopped.mar = s.reg r ∧ f.stopped.mem = s.mem)

/-- R137: LOAD, the same with the immediate as the address. -/
def Obligations.LoadLoadsAbsolute : Prop :=
  ∀ (c : Cond) (d : RegCode) (alu : Microcode) (imm : Word) (s : State),
    CondTrue c s → s.config.isGpr d = true → s.fe = false → s.irb = imm →
    (∀ w, s.wordAt imm = .ok w →
      exec (.load c d alu imm) s = .next { s with
        gpr := s.gpr.set d.toNat w, mar := imm, mdr := w
        aluB := w, selB := .mdr, aluOp := transferB, selW := .void, fe := false, cu := .fetch1 }) ∧
    (∀ k, s.wordAt imm = .error k →
      ∃ f, exec (.load c d alu imm) s = .fault f ∧ f.kind = some k ∧ f.stopped.mar = imm)

/-- R138: STORE, the same with the immediate as the address. -/
def Obligations.StoreStoresAbsolute : Prop :=
  ∀ (c : Cond) (d : RegCode) (alu : Microcode) (imm : Word) (s : State),
    CondTrue c s → s.config.isGpr d = true → s.fe = false → s.irb = imm →
    (backed s.config.regions imm = true →
      exec (.store c d alu imm) s = .next { s with
        mem := s.mem.write imm.toNat (s.reg d)
        consoleOut := s.consoleOut ++ storeEvents s.config.regions imm (s.reg d)
        mar := imm, mdr := s.reg d
        aluA := s.reg d, selA := .gp d, aluB := imm, selB := .irb, aluOp := transferA, selW := .void
        fe := false, cu := .fetch1 }) ∧
    (backed s.config.regions imm = false →
      ∃ f, exec (.store c d alu imm) s = .fault f ∧ f.kind = some (.addressFault imm) ∧
        f.stopped.mar = imm ∧ f.stopped.mem = s.mem)

/-- R139, R140: JMP and B set PC to the target, whatever the target is, and change no flag, register or memory. -/
def Obligations.JumpsSetPcToTarget : Prop :=
  ∀ (c : Cond) (target : Word) (s : State), CondTrue c s → s.fe = false → s.irb = target →
    exec (.jmp c target) s = .next { s with
      pc := target, aluB := target, selB := .irb, aluOp := transferB, selW := .void, fe := false, cu := .fetch1 } ∧
    exec (.b c target) s = .next { s with
      pc := target, aluB := target, selB := .irb, aluOp := transferB, selW := .void, fe := false, cu := .fetch1 }

/-- R141: NOP has no effect: only `cu` moves (and `fe` is cleared, as after every executed instruction). -/
def Obligations.NopHasNoEffect : Prop :=
  ∀ (c : Cond) (target : Word) (s : State), CondTrue c s →
    exec (.nop c target) s = .next { s with fe := false, cu := .fetch1 }

/-- R143 to R146: CLZ, CLOF, CLNG and the `EXTRA_UNIMPLEMENTED` opcodes raise UnimplementedOpcode with their opcode value
when their condition holds, and the faulted state differs from the state before by the fault record alone: no flag is
cleared. -/
def Obligations.UnimplementedOpcodesAreExplicit : Prop :=
  ∀ (c : Cond) (d r : RegCode) (alu : Microcode) (s : State), CondTrue c s →
    (∃ f, exec (.clz c d r alu) s = .fault f ∧ f.kind = some (.unimplementedOpcode s.config.opcodes.clz) ∧
      f.stopped = { s with fault := some ⟨.unimplementedOpcode s.config.opcodes.clz, s.cu, s.pc, s.ira, s.irb⟩ }) ∧
    (∃ f, exec (.clof c d r alu) s = .fault f ∧ f.kind = some (.unimplementedOpcode s.config.opcodes.clof) ∧
      f.stopped = { s with fault := some ⟨.unimplementedOpcode s.config.opcodes.clof, s.cu, s.pc, s.ira, s.irb⟩ }) ∧
    (∃ f, exec (.clng c d r alu) s = .fault f ∧ f.kind = some (.unimplementedOpcode s.config.opcodes.clng) ∧
      f.stopped = { s with fault := some ⟨.unimplementedOpcode s.config.opcodes.clng, s.cu, s.pc, s.ira, s.irb⟩ }) ∧
    (∀ e : ExtraInstr, e.cond = c → ∃ f, execExtra e s = .fault f ∧ f.kind = some (.unimplementedOpcode e.value) ∧
      f.stopped = { s with fault := some ⟨.unimplementedOpcode e.value, s.cu, s.pc, s.ira, s.irb⟩ })

/-- R114, R66: an instruction whose used register fields do not all name registers, which decode never builds, stops with
FabricError(IllegalAddress) when its condition holds. -/
def Obligations.UnnamedRegisterStops : Prop :=
  ∀ (i : Instr) (s : State), i.wf s.config = false → CondTrue i.cond s →
    Faults (exec i s) (.fabricError .illegalAddress)

/-! ## Frames: what an instruction that answers a next state leaves unchanged -/

/-- R133, R134: AOPR and AOPI change no register but GPd, no memory word, and none of PC, MAR, MDR, IRA, IRB, the
parameters, `cur` and the console events; with a false condition they change no register and no flag either. -/
def Obligations.AluInstructionFrame : Prop :=
  ∀ (i : Instr) (c : Cond) (d : RegCode) (s t : State),
    ((∃ r alu, i = .aopr c d r alu) ∨ (∃ alu imm, i = .aopi c d alu imm)) → exec i s = .next t →
    (∀ q, q ≠ d → t.reg q = s.reg q) ∧ (CondFalse c s → t.reg d = s.reg d ∧ t.flags = s.flags) ∧
    (∀ a, t.wordAt a = s.wordAt a) ∧ t.mem = s.mem ∧ t.consoleOut = s.consoleOut ∧
    t.pc = s.pc ∧ t.mar = s.mar ∧ t.mdr = s.mdr ∧ t.ira = s.ira ∧ t.irb = s.irb ∧
    t.config = s.config ∧ t.cur = s.cur ∧ t.fault = s.fault

/-- R135, R137: LOADR and LOAD change no register but GPd, MAR and MDR, no flag, no memory word, and none of PC, IRA,
IRB, the parameters, `cur` and the console events. -/
def Obligations.LoadFrame : Prop :=
  ∀ (i : Instr) (c : Cond) (d : RegCode) (s t : State), s.fe = false →
    ((∃ r alu, i = .loadr c d r alu) ∨ (∃ alu imm, i = .load c d alu imm)) → exec i s = .next t →
    (∀ q, q ≠ d → t.reg q = s.reg q) ∧ t.flags = s.flags ∧
    (∀ a, t.wordAt a = s.wordAt a) ∧ t.mem = s.mem ∧ t.consoleOut = s.consoleOut ∧
    t.pc = s.pc ∧ t.ira = s.ira ∧ t.irb = s.irb ∧ t.fe = false ∧
    t.config = s.config ∧ t.cur = s.cur ∧ t.fault = s.fault

/-- R136, R138: STORR and STORE change no general-purpose register, no flag, and no memory word but the one at the
address they store to: GPr for STORR, the immediate in IRB for STORE. PC, IRA, IRB, the parameters and `cur` stay. The
console events grow by the event of the stored GPd, if any (log 15); with a false condition they and memory stay. -/
def Obligations.StoreFrame : Prop :=
  ∀ (i : Instr) (c : Cond) (d : RegCode) (stored : Word) (s t : State), s.fe = false →
    ((∃ r alu, i = .storr c d r alu ∧ stored = s.reg r) ∨ (∃ alu imm, i = .store c d alu imm ∧ stored = s.irb)) →
    exec i s = .next t →
    (∀ q, t.reg q = s.reg q) ∧ t.flags = s.flags ∧
    (∀ a, a ≠ stored → t.wordAt a = s.wordAt a) ∧
    (CondFalse c s → t.mem = s.mem ∧ t.consoleOut = s.consoleOut) ∧
    (CondTrue c s → t.consoleOut = s.consoleOut ++ storeEvents s.config.regions stored (s.reg d)) ∧
    t.pc = s.pc ∧ t.ira = s.ira ∧ t.irb = s.irb ∧ t.fe = false ∧
    t.config = s.config ∧ t.cur = s.cur ∧ t.fault = s.fault

/-- R139 to R146: JMP, B, NOP, CLZ, CLOF and CLNG change no general-purpose register, no flag, no memory word, and none
of MAR, MDR, IRA, IRB; all but JMP and B leave PC too. -/
def Obligations.JumpNopAndClearFrame : Prop :=
  ∀ (i : Instr) (s t : State), s.fe = false →
    i.opcode ∈ [Opcode.jmp, .b, .nop, .clz, .clof, .clng] → exec i s = .next t →
    (∀ q, t.reg q = s.reg q) ∧ t.flags = s.flags ∧ (∀ a, t.wordAt a = s.wordAt a) ∧ t.mem = s.mem ∧
    t.consoleOut = s.consoleOut ∧ t.mar = s.mar ∧ t.mdr = s.mdr ∧ t.ira = s.ira ∧ t.irb = s.irb ∧
    (i.opcode ∉ [Opcode.jmp, .b] → t.pc = s.pc) ∧ t.fe = false ∧
    t.config = s.config ∧ t.cur = s.cur ∧ t.fault = s.fault

/-! ## Invariants and whole-machine rules -/

/-- Every step from a state that meets the invariant leads to one that meets it: the memory keeps its canonical form and
stays inside the backing memories, `fe` is false and `selW` is VOID between pulses (R175), `carry` is `overflow` (R91),
and in Execute the current instruction is the decode of IRA and IRB (R31). -/
def Obligations.StepKeepsInvariant : Prop :=
  ∀ s t : State, MachineInv s → step s = .next t → MachineInv t

/-- The state right after reset meets the invariant. The parameter and register values in it are the model's choices
(logs 1, 4, 5, 7, 8). -/
def Obligations.ResetMeetsInvariant : Prop := MachineInv State.reset

/-- R164 to R168: a successful load leads to a state that meets the invariant, for well-formed parameters and launch
values that meet their part of it. -/
def Obligations.LaunchMeetsInvariant : Prop :=
  ∀ (p : LoadParams) (file : List Byte) (s : State), p.config.wf = true → p.init.mem.wf = true →
    p.init.flags.carry = p.init.flags.overflow →
    (∀ c ∈ p.init.mem, backed s.config.regions (BitVec.ofNat 32 c.1) = true) →
    load p file = .ok s → MachineInv s

/-- R23, R60: in Execute, from a state that meets the invariant, IRB holds the immediate or target of the current
instruction, which is what its routine reads (log 14). -/
def Obligations.ExecuteFindsItsOperandInIrb : Prop :=
  ∀ s : State, MachineInv s → s.cu = .execute →
    (∀ c d a imm, s.cur = some (.core (.aopi c d a imm)) ∨ s.cur = some (.core (.load c d a imm)) ∨
      s.cur = some (.core (.store c d a imm)) → s.irb = imm ∧ s.config.isGpr d = true) ∧
    (∀ c t, s.cur = some (.core (.jmp c t)) ∨ s.cur = some (.core (.b c t)) ∨ s.cur = some (.core (.nop c t)) →
      s.irb = t)

/-- R26, R175: between two pulses the flags change only in the Execute of an AOPR or AOPI whose condition holds. -/
def Obligations.FlagsChangeOnlyInAluExecute : Prop :=
  ∀ s t : State, MachineInv s → step s = .next t → t.flags ≠ s.flags →
    s.cu = .execute ∧ ∃ i, s.cur = some (.core i) ∧ CondTrue i.cond s ∧ i.opcode ∈ [Opcode.aopr, .aopi]

/-- R19: PC is written only by Decode, which adds 2, and by a JMP or B whose condition holds, which sets it to the
target in IRB. -/
def Obligations.PcChangesOnlyInDecodeAndJumps : Prop :=
  ∀ s t : State, MachineInv s → step s = .next t →
    (s.cu = .decode → t.pc = s.pc + 2) ∧
    (s.cu ≠ .decode → t.pc ≠ s.pc →
      s.cu = .execute ∧ t.pc = s.irb ∧
      ∃ i, s.cur = some (.core i) ∧ CondTrue i.cond s ∧ i.opcode ∈ [Opcode.jmp, .b])

/-- R18: a general-purpose register changes only in the Execute of an AOPR, AOPI, LOADR or LOAD whose condition holds and
whose dest field names it. -/
def Obligations.RegistersChangeOnlyAsDest : Prop :=
  ∀ (s t : State) (q : RegCode), MachineInv s → step s = .next t → t.reg q ≠ s.reg q →
    s.cu = .execute ∧ ∃ i, s.cur = some (.core i) ∧ CondTrue i.cond s ∧
      ((∃ c r a, i = .aopr c q r a) ∨ (∃ c a m, i = .aopi c q a m) ∨
       (∃ c r a, i = .loadr c q r a) ∨ (∃ c a m, i = .load c q a m))

/-- R41, R46, R160: memory changes, and a ConsoleWrite event is emitted, only in the Execute of a STORR or STORE whose
condition holds; exactly one event per store into the console region, with the Word stored. -/
def Obligations.MemoryAndConsoleChangeOnlyInStores : Prop :=
  ∀ s t : State, MachineInv s → step s = .next t →
    (t.mem = s.mem ∧ t.consoleOut = s.consoleOut) ∨
    (s.cu = .execute ∧ ∃ i d, s.cur = some (.core i) ∧ CondTrue i.cond s ∧
      ((∃ c r a, i = .storr c d r a ∧ t.mar = s.reg r) ∨ (∃ c a m, i = .store c d a m ∧ t.mar = m)) ∧
      t.mem = s.mem.write t.mar.toNat (s.reg d) ∧
      t.consoleOut = s.consoleOut ++ storeEvents s.config.regions t.mar (s.reg d))

/-- R36, R179: the regions, the constant registers and every other parameter are fixed at launch. -/
def Obligations.ParametersNeverChange : Prop :=
  ∀ s t : State, step s = .next t → t.config = s.config

/-- R53, R176: a store is seen by the fetch that follows it, and does not change the instruction being executed: after a
STORE to the address PC holds, the next step fetches the stored Word into IRA. -/
def Obligations.FetchSeesTheStore : Prop :=
  ∀ (c : Cond) (d : RegCode) (alu : Microcode) (imm : Word) (s : State),
    s.fault = none → s.fe = false → CondTrue c s → s.config.isGpr d = true → s.irb = imm → s.pc = imm →
    backed s.config.regions imm = true →
    ∃ t u, exec (.store c d alu imm) s = .next t ∧ t.ira = s.ira ∧ t.irb = s.irb ∧ t.cur = s.cur ∧
      step t = .next u ∧ u.ira = s.reg d

/-- R22: "no observable behaviour depends on `CONST_REGS`": two machines that differ only in their constant registers
step to states that differ only in them; and where one stops, the other stops with the same kind of fault, in a state
(the fault record in it, R149, R167) that differs only in them. -/
def Obligations.ConstantRegistersAreUnobservable : Prop :=
  ∀ (s : State) (consts : List Word),
    (∀ t, step s = .next t → step (s.withConstRegs consts) = .next (t.withConstRegs consts)) ∧
    (∀ f, step s = .fault f → ∃ g, step (s.withConstRegs consts) = .fault g ∧
      g.kind = f.kind ∧ g.stopped = f.stopped.withConstRegs consts)

/-! ## Loading and assembling -/

/-- R173: a program written with a header reads back as that header and those program Words, and a file that reads at
all is byte for byte what the writer makes of its parts. The writer emits R164's layout exactly: Word `k` of the six
header Words and the program Words is bytes `4k` to `4k + 3`, most significant first, and there is no byte more. -/
def Obligations.ContainerRoundTrip : Prop :=
  (∀ (h : Header) (program : List Word), program.length % 2 = 0 →
    readContainer (writeContainer h program) = .ok (h, program)) ∧
  (∀ (file : List Byte) (h : Header) (program : List Word), readContainer file = .ok (h, program) →
    writeContainer h program = file) ∧
  (∀ (h : Header) (program : List Word),
    (writeContainer h program).length = 24 + 4 * program.length ∧
    ∀ (k : Nat) (w : Word),
      ([h.version, h.ramFirst, h.ramLast, h.consoleFirst, h.consoleLast, h.entry] ++ program)[k]? = some w →
      (writeContainer h program)[4 * k]? = some (w.extractLsb' 24 8) ∧
      (writeContainer h program)[4 * k + 1]? = some (w.extractLsb' 16 8) ∧
      (writeContainer h program)[4 * k + 2]? = some (w.extractLsb' 8 8) ∧
      (writeContainer h program)[4 * k + 3]? = some (w.extractLsb' 0 8))

/-- R165, R166, R168, R169: what a successful load gives: the version matches, program Word `i` is at `LOAD_BASE + i`,
other words are as `INIT_STATE` gives them, the launch values of R168 hold, and every cell it leaves unwritten is as
`INIT_STATE` gives it. The address modulo 2^32 (log 18), the empty list of console events (log 15) and an `INIT_STATE`
that names every register, latch and flag (log 1) are the model's choices. -/
def Obligations.LoadGivesTheLaunchState : Prop :=
  ∀ (p : LoadParams) (file : List Byte) (s : State), load p file = .ok s →
    ∃ h program, readContainer file = .ok (h, program) ∧ h.version = p.codecVersion ∧
      s.config = { p.config with regions := h.regions } ∧ regionsWf h.regions = true ∧
      s.pc = p.entryPoint.getD h.entry ∧ s.cu = .fetch1 ∧ s.fe = false ∧ s.selW = .void ∧ s.cur = none ∧
      s.fault = none ∧ s.consoleOut = [] ∧
      s.gpr = p.init.gpr ∧ s.mar = p.init.mar ∧ s.mdr = p.init.mdr ∧ s.ira = p.init.ira ∧ s.irb = p.init.irb ∧
      s.aluA = p.init.aluA ∧ s.aluB = p.init.aluB ∧ s.flags = p.init.flags ∧
      (program.length ≤ 2 ^ 32 → ∀ (i : Nat) (hi : i < program.length),
        s.wordAt (p.loadBase.getD h.ramFirst + BitVec.ofNat 32 i) = .ok program[i]) ∧
      (∀ a : Word, (∀ i < program.length, a ≠ p.loadBase.getD h.ramFirst + BitVec.ofNat 32 i) →
        s.mem.read a.toNat = p.init.mem.read a.toNat)

/-- R165: a header version other than the codec's is a load failure, and no state is built. That the failure is named
VersionMismatch also where the regions or the place of the program would fail the load too is the model's order of the
checks (log 18); the spec orders no two failures. -/
def Obligations.VersionMismatchStopsTheLoad : Prop :=
  ∀ (p : LoadParams) (h : Header) (program : List Word), program.length % 2 = 0 → h.version ≠ p.codecVersion →
    load p (writeContainer h program) = .error .versionMismatch

/-- R83: the source's fixed program assembles to the six Words, which decode to an R-type ADD, an I-type STORE and a
J-type JMP, in that order. -/
def Obligations.FixedProgramAssemblesAndDecodes : Prop :=
  assemble Config.default
      ("ADD GP1, GP2\nSTORE GP1, 0x10\nJMP 0x00".toList)
    = .words [0x0C022080, 0x00000000, 0x20020000, 0x00000010, 0x04000000, 0x00000000] ∧
  decode Config.default 0x0C022080 0x00000000 = .ok (.core (.aopr .always 1 2 additionSigned)) ∧
  decode Config.default 0x20020000 0x00000010 = .ok (.core (.store .always 1 0 0x10)) ∧
  decode Config.default 0x04000000 0x00000000 = .ok (.core (.jmp .always 0x00))

/-- R81, R83: whatever text assembles under well-formed parameters gives a sequence of pairs of Words, each of which
decodes to a table instruction. -/
def Obligations.AssembledPairsDecode : Prop :=
  ∀ (k : Config) (source : List Char) (ws : List Word), k.wf = true → assemble k source = .words ws →
    ∃ is : List Instr, ws = is.flatMap (fun i => [(encode k i).1, (encode k i).2]) ∧
      ∀ i ∈ is, decode k (encode k i).1 (encode k i).2 = .ok (.core i)

/-- R165: "The assembler writes `CODEC_VERSION` into Word 0 of every file it produces." A text that assembles gives a file
whose first four bytes are that Word and which reads back as the header with it and the assembled Words, so a loader with
the same `CODEC_VERSION` never answers VersionMismatch, nor MalformedExecutable (R164, R166). A text that does not
assemble gives no file, and the same EncodingError (R82). -/
def Obligations.AssembledFilesCarryTheCodecVersion : Prop :=
  ∀ (k : Config) (version : Word) (f : FileLayout) (source : List Char),
    (∀ ws, assemble k source = .words ws → ∃ file, assembleFile k version f source = .file file ∧
      file.take 4 = bytesOfWord version ∧
      readContainer file
        = .ok (⟨version, f.ramFirst, f.ramLast, f.consoleFirst, f.consoleLast, f.entry⟩, ws) ∧
      ∀ p : LoadParams, p.codecVersion = version →
        load p file ≠ .error .versionMismatch ∧ load p file ≠ .error .malformedExecutable) ∧
    (∀ line problem, assemble k source = .encodingError line problem →
      assembleFile k version f source = .encodingError line problem)
end

