-- ==== Sys2Proof/Laws/State.lean ====
section
/-! SUPPORT. Sys2Proof/Laws/State.lean: one lemma per field per named update of the state, so that no later proof
unfolds a record update, and the small lemmas of the cells. -/

namespace Sys2Proof.Machine

open Sys2Proof

/-! ## `writeCell`, one lemma a field -/
@[simp] theorem writeCell_config (s : State) (r : BusAddr) (v : Word) : (s.writeCell r v).config = s.config := by cases r <;> rfl
@[simp] theorem writeCell_flags (s : State) (r : BusAddr) (v : Word) : (s.writeCell r v).flags = s.flags := by cases r <;> rfl
@[simp] theorem writeCell_fe (s : State) (r : BusAddr) (v : Word) : (s.writeCell r v).fe = s.fe := by cases r <;> rfl
@[simp] theorem writeCell_aluA (s : State) (r : BusAddr) (v : Word) : (s.writeCell r v).aluA = s.aluA := by cases r <;> rfl
@[simp] theorem writeCell_aluB (s : State) (r : BusAddr) (v : Word) : (s.writeCell r v).aluB = s.aluB := by cases r <;> rfl
@[simp] theorem writeCell_aluOp (s : State) (r : BusAddr) (v : Word) : (s.writeCell r v).aluOp = s.aluOp := by cases r <;> rfl
@[simp] theorem writeCell_selA (s : State) (r : BusAddr) (v : Word) : (s.writeCell r v).selA = s.selA := by cases r <;> rfl
@[simp] theorem writeCell_selB (s : State) (r : BusAddr) (v : Word) : (s.writeCell r v).selB = s.selB := by cases r <;> rfl
@[simp] theorem writeCell_selW (s : State) (r : BusAddr) (v : Word) : (s.writeCell r v).selW = s.selW := by cases r <;> rfl
@[simp] theorem writeCell_cu (s : State) (r : BusAddr) (v : Word) : (s.writeCell r v).cu = s.cu := by cases r <;> rfl
@[simp] theorem writeCell_cur (s : State) (r : BusAddr) (v : Word) : (s.writeCell r v).cur = s.cur := by cases r <;> rfl
@[simp] theorem writeCell_fault (s : State) (r : BusAddr) (v : Word) : (s.writeCell r v).fault = s.fault := by cases r <;> rfl
@[simp] theorem writeCell_mem (s : State) (r : BusAddr) (v : Word) : (s.writeCell r v).mem = s.mem := by cases r <;> rfl
@[simp] theorem writeCell_consoleOut (s : State) (r : BusAddr) (v : Word) : (s.writeCell r v).consoleOut = s.consoleOut := by cases r <;> rfl

/-! ## `writeCell` of each cell -/
@[simp] theorem writeCell_to_pc (s : State) (v : Word) : s.writeCell .pc v = { s with pc := v } := rfl
@[simp] theorem writeCell_to_mar (s : State) (v : Word) : s.writeCell .mar v = { s with mar := v } := rfl
@[simp] theorem writeCell_to_mdr (s : State) (v : Word) : s.writeCell .mdr v = { s with mdr := v } := rfl
@[simp] theorem writeCell_to_ira (s : State) (v : Word) : s.writeCell .ira v = { s with ira := v } := rfl
@[simp] theorem writeCell_to_irb (s : State) (v : Word) : s.writeCell .irb v = { s with irb := v } := rfl
@[simp] theorem writeCell_to_gp (s : State) (c : RegCode) (v : Word) :
    s.writeCell (.gp c) v = { s with gpr := s.gpr.set c.toNat v } := rfl
@[simp] theorem writeCell_to_void (s : State) (v : Word) : s.writeCell .void v = s := rfl
@[simp] theorem writeCell_to_const (s : State) (n : Nat) (v : Word) : s.writeCell (.const n) v = s := rfl

/-! ## `readCell` of each cell -/
@[simp] theorem readCell_pc (s : State) : s.readCell .pc = s.pc := rfl
@[simp] theorem readCell_mar (s : State) : s.readCell .mar = s.mar := rfl
@[simp] theorem readCell_mdr (s : State) : s.readCell .mdr = s.mdr := rfl
@[simp] theorem readCell_ira (s : State) : s.readCell .ira = s.ira := rfl
@[simp] theorem readCell_irb (s : State) : s.readCell .irb = s.irb := rfl
@[simp] theorem readCell_gp (s : State) (c : RegCode) : s.readCell (.gp c) = s.gpr[c.toNat] := rfl

/-! ## `commitFlags`, one lemma a field -/
@[simp] theorem commitFlags_config (s : State) (f : Flags) : (s.commitFlags f).config = s.config := by
  unfold State.commitFlags; split <;> rfl
@[simp] theorem commitFlags_gpr (s : State) (f : Flags) : (s.commitFlags f).gpr = s.gpr := by
  unfold State.commitFlags; split <;> rfl
@[simp] theorem commitFlags_pc (s : State) (f : Flags) : (s.commitFlags f).pc = s.pc := by
  unfold State.commitFlags; split <;> rfl
@[simp] theorem commitFlags_mar (s : State) (f : Flags) : (s.commitFlags f).mar = s.mar := by
  unfold State.commitFlags; split <;> rfl
@[simp] theorem commitFlags_mdr (s : State) (f : Flags) : (s.commitFlags f).mdr = s.mdr := by
  unfold State.commitFlags; split <;> rfl
@[simp] theorem commitFlags_ira (s : State) (f : Flags) : (s.commitFlags f).ira = s.ira := by
  unfold State.commitFlags; split <;> rfl
@[simp] theorem commitFlags_irb (s : State) (f : Flags) : (s.commitFlags f).irb = s.irb := by
  unfold State.commitFlags; split <;> rfl
@[simp] theorem commitFlags_flags (s : State) (f : Flags) :
    (s.commitFlags f).flags = if s.fe then f else s.flags := by unfold State.commitFlags; split <;> rfl
@[simp] theorem commitFlags_fe (s : State) (f : Flags) : (s.commitFlags f).fe = s.fe := by
  unfold State.commitFlags; split <;> rfl
@[simp] theorem commitFlags_aluA (s : State) (f : Flags) : (s.commitFlags f).aluA = s.aluA := by
  unfold State.commitFlags; split <;> rfl
@[simp] theorem commitFlags_aluB (s : State) (f : Flags) : (s.commitFlags f).aluB = s.aluB := by
  unfold State.commitFlags; split <;> rfl
@[simp] theorem commitFlags_aluOp (s : State) (f : Flags) : (s.commitFlags f).aluOp = s.aluOp := by
  unfold State.commitFlags; split <;> rfl
@[simp] theorem commitFlags_selA (s : State) (f : Flags) : (s.commitFlags f).selA = s.selA := by
  unfold State.commitFlags; split <;> rfl
@[simp] theorem commitFlags_selB (s : State) (f : Flags) : (s.commitFlags f).selB = s.selB := by
  unfold State.commitFlags; split <;> rfl
@[simp] theorem commitFlags_selW (s : State) (f : Flags) : (s.commitFlags f).selW = s.selW := by
  unfold State.commitFlags; split <;> rfl
@[simp] theorem commitFlags_cu (s : State) (f : Flags) : (s.commitFlags f).cu = s.cu := by
  unfold State.commitFlags; split <;> rfl
@[simp] theorem commitFlags_cur (s : State) (f : Flags) : (s.commitFlags f).cur = s.cur := by
  unfold State.commitFlags; split <;> rfl
@[simp] theorem commitFlags_fault (s : State) (f : Flags) : (s.commitFlags f).fault = s.fault := by
  unfold State.commitFlags; split <;> rfl
@[simp] theorem commitFlags_mem (s : State) (f : Flags) : (s.commitFlags f).mem = s.mem := by
  unfold State.commitFlags; split <;> rfl
@[simp] theorem commitFlags_consoleOut (s : State) (f : Flags) : (s.commitFlags f).consoleOut = s.consoleOut := by
  unfold State.commitFlags; split <;> rfl

/-- With `fe` false nothing is committed (40_alu.md R92). -/
theorem commitFlags_off {s : State} (h : s.fe = false) (f : Flags) : s.commitFlags f = s := by
  simp [State.commitFlags, h]

/-- With `fe` true all four flags are written at once (40_alu.md R92). -/
theorem commitFlags_on {s : State} (h : s.fe = true) (f : Flags) : s.commitFlags f = { s with flags := f } := by
  simp [State.commitFlags, h]

/-! ## `endExecute`, one lemma a field -/
@[simp] theorem endExecute_config (s : State) : s.endExecute.config = s.config := rfl
@[simp] theorem endExecute_gpr (s : State) : s.endExecute.gpr = s.gpr := rfl
@[simp] theorem endExecute_pc (s : State) : s.endExecute.pc = s.pc := rfl
@[simp] theorem endExecute_mar (s : State) : s.endExecute.mar = s.mar := rfl
@[simp] theorem endExecute_mdr (s : State) : s.endExecute.mdr = s.mdr := rfl
@[simp] theorem endExecute_ira (s : State) : s.endExecute.ira = s.ira := rfl
@[simp] theorem endExecute_irb (s : State) : s.endExecute.irb = s.irb := rfl
@[simp] theorem endExecute_flags (s : State) : s.endExecute.flags = s.flags := rfl
@[simp] theorem endExecute_fe (s : State) : s.endExecute.fe = false := rfl
@[simp] theorem endExecute_aluA (s : State) : s.endExecute.aluA = s.aluA := rfl
@[simp] theorem endExecute_aluB (s : State) : s.endExecute.aluB = s.aluB := rfl
@[simp] theorem endExecute_aluOp (s : State) : s.endExecute.aluOp = s.aluOp := rfl
@[simp] theorem endExecute_selA (s : State) : s.endExecute.selA = s.selA := rfl
@[simp] theorem endExecute_selB (s : State) : s.endExecute.selB = s.selB := rfl
@[simp] theorem endExecute_selW (s : State) : s.endExecute.selW = s.selW := rfl
@[simp] theorem endExecute_cu (s : State) : s.endExecute.cu = .fetch1 := rfl
@[simp] theorem endExecute_cur (s : State) : s.endExecute.cur = s.cur := rfl
@[simp] theorem endExecute_fault (s : State) : s.endExecute.fault = s.fault := rfl
@[simp] theorem endExecute_mem (s : State) : s.endExecute.mem = s.mem := rfl
@[simp] theorem endExecute_consoleOut (s : State) : s.endExecute.consoleOut = s.consoleOut := rfl

/-! ## Registers -/

/-- Reading a register after writing it. -/
@[simp] theorem reg_set_same (g : Vector Word 32) (c : RegCode) (v : Word) :
    (g.set c.toNat v)[c.toNat] = v := by simp

/-- Reading another register after writing one. -/
theorem reg_set_other (g : Vector Word 32) {c d : RegCode} (v : Word) (h : c ≠ d) :
    (g.set d.toNat v)[c.toNat] = g[c.toNat] := by
  rw [Vector.getElem_set, if_neg]
  exact fun e => h (BitVec.eq_of_toNat_eq e.symm)

/-! ## Faults -/

/-- A raised fault has the kind it was raised with. -/
@[simp] theorem raiseFault_kind (k : FaultKind) (s : State) : (raiseFault k s).kind = some k := by cases k <;> rfl

/-- The faulted state is the state at the raise with the fault record set. -/
@[simp] theorem raiseFault_stopped (k : FaultKind) (s : State) :
    (raiseFault k s).stopped = { s with fault := some (faultRecord k s) } := by cases k <;> rfl

end Sys2Proof.Machine
end

