-- ==== Sys2Proof/Laws/Alu.lean ====
section
/-! SUPPORT. Sys2Proof/Laws/Alu.lean: the laws of `compute` the control unit's micro-operations rest on. -/

namespace Sys2Proof.Machine

open Sys2Proof

@[simp] theorem compute_fst (x y : Word) (op : Microcode) : (compute x y op).1 = aluOut x y op := rfl

@[simp] theorem compute_snd (x y : Word) (op : Microcode) : (compute x y op).2 = aluFlags x y op := rfl

theorem allOnes_eq : (4294967295#32 : Word) = BitVec.allOnes 32 := by decide

@[simp] theorem and_ones (v : Word) : v &&& 4294967295#32 = v := by rw [allOnes_eq, BitVec.and_allOnes]

@[simp] theorem ones_and (v : Word) : 4294967295#32 &&& v = v := by rw [allOnes_eq, BitVec.allOnes_and]

/-- TransferA gives operand A (40_alu.md R94). -/
@[simp] theorem aluOut_transferA (x y : Word) : aluOut x y transferA = x := by
  simp [aluOut, aluX, aluY, prepOperand, microZx, microNx, microZy, microNy, microF, microNo, transferA]

/-- TransferB gives operand B (40_alu.md R95). -/
@[simp] theorem aluOut_transferB (x y : Word) : aluOut x y transferB = y := by
  simp [aluOut, aluX, aluY, prepOperand, microZx, microNx, microZy, microNy, microF, microNo, transferB]

/-- A_Increment gives `A + 1` (40_alu.md R101). -/
@[simp] theorem aluOut_aIncrement (x y : Word) : aluOut x y aIncrement = x + 1 := by
  have h : ~~~(~~~x + 4294967295#32) = x + 1 := by
    bv_omega
  simpa [aluOut, aluX, aluY, prepOperand, microZx, microNx, microZy, microNy, microF, microNo, aIncrement] using h

/-- The latched carry is always the latched overflow (40_alu.md R91). -/
theorem aluFlags_carry (x y : Word) (op : Microcode) : (aluFlags x y op).carry = (aluFlags x y op).overflow := rfl

end Sys2Proof.Machine
end

