-- ==== Sys2Proof/Laws/Codec.lean ====
section
/-! SUPPORT. Sys2Proof/Laws/Codec.lean: the fields of encoded Words, and the inverse lookups of the opcode and condition
tables. -/

namespace Sys2Proof

/-! ## Fields of an encoded low Word -/

/-- Reads off one field of the low Word by cases on its bits. -/
theorem opField_encodeR (v : OpValue) (c : CondValue) (d s : RegCode) (a : Microcode) :
    opField (encodeR v c d s a).1 = v := by
  apply BitVec.eq_of_getLsbD_eq
  intro i hi
  interval_cases i <;> simp [opField, encodeR, encodeHead]

theorem condField_encodeR (v : OpValue) (c : CondValue) (d s : RegCode) (a : Microcode) :
    condField (encodeR v c d s a).1 = c := by
  apply BitVec.eq_of_getLsbD_eq
  intro i hi
  interval_cases i <;> simp [condField, encodeR, encodeHead]

theorem destField_encodeR (v : OpValue) (c : CondValue) (d s : RegCode) (a : Microcode) :
    destField (encodeR v c d s a).1 = d := by
  apply BitVec.eq_of_getLsbD_eq
  intro i hi
  interval_cases i <;> simp [destField, encodeR, encodeHead]

theorem srcField_encodeR (v : OpValue) (c : CondValue) (d s : RegCode) (a : Microcode) :
    srcField (encodeR v c d s a).1 = s := by
  apply BitVec.eq_of_getLsbD_eq
  intro i hi
  interval_cases i <;> simp [srcField, encodeR, encodeHead]

theorem aluFieldR_encodeR (v : OpValue) (c : CondValue) (d s : RegCode) (a : Microcode) :
    aluFieldR (encodeR v c d s a).1 = a := by
  apply BitVec.eq_of_getLsbD_eq
  intro i hi
  interval_cases i <;> simp [aluFieldR, encodeR, encodeHead]

theorem reservedSet_encodeR (v : OpValue) (c : CondValue) (d s : RegCode) (a : Microcode) :
    reservedSet .register (encodeR v c d s a).1 (encodeR v c d s a).2 = false := by
  have h : (encodeR v c d s a).1.extractLsb' 0 6 = 0 := by
    apply BitVec.eq_of_getLsbD_eq
    intro i hi
    interval_cases i <;> simp [encodeR, encodeHead]
  rw [reservedSet, h]
  rfl

theorem opField_encodeI (v : OpValue) (c : CondValue) (d : RegCode) (a : Microcode) (imm : Word) :
    opField (encodeI v c d a imm).1 = v := by
  apply BitVec.eq_of_getLsbD_eq
  intro i hi
  interval_cases i <;> simp [opField, encodeI, encodeHead]

theorem condField_encodeI (v : OpValue) (c : CondValue) (d : RegCode) (a : Microcode) (imm : Word) :
    condField (encodeI v c d a imm).1 = c := by
  apply BitVec.eq_of_getLsbD_eq
  intro i hi
  interval_cases i <;> simp [condField, encodeI, encodeHead]

theorem destField_encodeI (v : OpValue) (c : CondValue) (d : RegCode) (a : Microcode) (imm : Word) :
    destField (encodeI v c d a imm).1 = d := by
  apply BitVec.eq_of_getLsbD_eq
  intro i hi
  interval_cases i <;> simp [destField, encodeI, encodeHead]

theorem aluFieldI_encodeI (v : OpValue) (c : CondValue) (d : RegCode) (a : Microcode) (imm : Word) :
    aluFieldI (encodeI v c d a imm).1 = a := by
  apply BitVec.eq_of_getLsbD_eq
  intro i hi
  interval_cases i <;> simp [aluFieldI, encodeI, encodeHead]

theorem reservedSet_encodeI (v : OpValue) (c : CondValue) (d : RegCode) (a : Microcode) (imm : Word) :
    reservedSet .immediate (encodeI v c d a imm).1 (encodeI v c d a imm).2 = false := by
  have h : (encodeI v c d a imm).1.extractLsb' 0 11 = 0 := by
    apply BitVec.eq_of_getLsbD_eq
    intro i hi
    interval_cases i <;> simp [encodeI, encodeHead]
  rw [reservedSet, h]
  rfl

theorem opField_encodeJ (v : OpValue) (c : CondValue) (t : Word) : opField (encodeJ v c t).1 = v := by
  apply BitVec.eq_of_getLsbD_eq
  intro i hi
  interval_cases i <;> simp [opField, encodeJ, encodeHead]

theorem condField_encodeJ (v : OpValue) (c : CondValue) (t : Word) : condField (encodeJ v c t).1 = c := by
  apply BitVec.eq_of_getLsbD_eq
  intro i hi
  interval_cases i <;> simp [condField, encodeJ, encodeHead]

theorem reservedSet_encodeJ (v : OpValue) (c : CondValue) (t : Word) :
    reservedSet .jump (encodeJ v c t).1 (encodeJ v c t).2 = false := by
  have h : (encodeJ v c t).1.extractLsb' 0 22 = 0 := by
    apply BitVec.eq_of_getLsbD_eq
    intro i hi
    interval_cases i <;> simp [encodeJ, encodeHead]
  rw [reservedSet, h]
  rfl

/-! ## Lookups -/

/-- A search by an injective key finds the element it is the key of. -/
theorem find?_key {α β : Type} [DecidableEq β] (f : α → β) {l : List α} {a : α} (h : (l.map f).Nodup) (ha : a ∈ l) :
    l.find? (fun x => f x == f a) = some a := by
  induction l with
  | nil => cases ha
  | cons b l ih =>
    rw [List.map_cons, List.nodup_cons] at h
    rcases List.mem_cons.1 ha with rfl | ha
    · simp
    · have : f b ≠ f a := fun e => h.1 (e ▸ List.mem_map_of_mem ha)
      simp [this, ih h.2 ha]

theorem Opcode.mem_all (op : Opcode) : op ∈ Opcode.all := by cases op <;> decide

theorem Cond.mem_all (c : Cond) : c ∈ Cond.all := by cases c <;> decide

/-- What well-formed parameters give. -/
theorem Config.wf_iff (k : Config) :
    k.wf = true ↔ (Opcode.all.map k.opcodes.code).Nodup ∧ (Cond.all.map k.conds.code).Nodup ∧ k.regCodes.Nodup ∧
      1 ≤ k.nGpr ∧ k.nGpr ≤ 31 ∧ (k.extra.map Prod.fst).Nodup ∧
      (∀ e ∈ k.extra, ∀ op, k.opcodes.code op ≠ e.1) ∧ regionsWf k.regions = true := by
  have hop : ∀ e : OpValue × InstrType,
      (Opcode.all.all (fun o => k.opcodes.code o != e.1) = true) ↔ ∀ op, k.opcodes.code op ≠ e.1 := by
    intro e
    simp only [List.all_eq_true, bne_iff_ne]
    exact ⟨fun h op => h op op.mem_all, fun h op _ => h op⟩
  simp only [Config.wf, Bool.and_eq_true, decide_eq_true_eq, List.all_eq_true, hop]
  simp only [and_assoc]

theorem lookupOpcode_code {k : Config} (h : k.wf = true) (op : Opcode) :
    lookupOpcode k (k.opcodes.code op) = some (.core op) := by
  rw [lookupOpcode, find?_key k.opcodes.code ((Config.wf_iff k).1 h).1 op.mem_all]

theorem lookupCond_code {k : Config} (h : k.wf = true) (c : Cond) : lookupCond k (k.conds.code c) = some c :=
  find?_key k.conds.code ((Config.wf_iff k).1 h).2.1 c.mem_all

theorem lookupOpcode_extra {k : Config} (h : k.wf = true) {v : OpValue} {t : InstrType} (he : (v, t) ∈ k.extra) :
    lookupOpcode k v = some (.extra v t) := by
  obtain ⟨-, -, -, -, -, hn, hd, -⟩ := (Config.wf_iff k).1 h
  have h1 : Opcode.all.find? (fun op => k.opcodes.code op == v) = none := by
    rw [List.find?_eq_none]
    intro op _
    simpa using hd _ he op
  have h2 := find?_key Prod.fst hn he
  simp only at h2
  rw [lookupOpcode, h1, h2]

/-- A recognised opcode value is the code of a table opcode, or a listed extra value. -/
theorem lookupOpcode_some {k : Config} {v : OpValue} {r : OpcodeRef} (h : lookupOpcode k v = some r) :
    (∃ op, r = .core op ∧ k.opcodes.code op = v) ∨ (∃ t, r = .extra v t ∧ (v, t) ∈ k.extra) := by
  unfold lookupOpcode at h
  split at h
  · rename_i op ho
    cases h
    exact .inl ⟨op, rfl, by simpa using List.find?_some ho⟩
  · split at h
    · rename_i e he
      cases h
      have hv : e.1 = v := by simpa using List.find?_some he
      exact .inr ⟨e.2, by rw [hv], by rw [← hv]; exact List.mem_of_find?_eq_some he⟩
    · cases h

theorem lookupCond_some {k : Config} {v : CondValue} {c : Cond} (h : lookupCond k v = some c) :
    k.conds.code c = v := by
  simpa using List.find?_some h

/-! ## Everything decode can answer -/

/-- A decoded Instruction is what its fields build, passes its register checks, and has its reserved bits zero unless
the policy ignores them (30_encoding.md R70). -/
theorem decode_ok {k : Config} {w0 w1 : Word} {i : Decoded} (h : decode k w0 w1 = .ok i) :
    ∃ r c, lookupOpcode k (opField w0) = some r ∧ lookupCond k (condField w0) = some c ∧
      i = buildInstr r c w0 w1 ∧ i.wf k = true ∧
      (reservedSet r.type w0 w1 = false ∨ k.reservedBits = .ignore) := by
  unfold decode at h
  split at h
  · cases h
  · rename_i r hr
    split at h
    · cases h
    · rename_i c hc
      split at h
      · cases h
      · rename_i hw
        split at h
        · cases h
        · rename_i hres
          cases h
          refine ⟨r, c, hr, hc, rfl, by simpa using hw, ?_⟩
          cases hs : reservedSet r.type w0 w1 with
          | false => exact .inl rfl
          | true =>
            right
            cases hp : k.reservedBits with
            | ignore => rfl
            | fault => exact absurd ⟨hs, hp⟩ hres

/-- Decode answers what the fields build when every check passes. -/
theorem decode_of {k : Config} {w0 w1 : Word} {r : OpcodeRef} {c : Cond} (hr : lookupOpcode k (opField w0) = some r)
    (hc : lookupCond k (condField w0) = some c) (hw : (buildInstr r c w0 w1).wf k = true)
    (hres : reservedSet r.type w0 w1 = false) : decode k w0 w1 = .ok (buildInstr r c w0 w1) := by
  simp [decode, hr, hc, hw, hres]

/-! ## A whole encoded Instruction -/

/-- The fields of an encoded Instruction: its opcode's value and its condition's value. -/
theorem head_encode (k : Config) (i : Instr) :
    opField (encode k i).1 = k.opcodes.code i.opcode ∧ condField (encode k i).1 = k.conds.code i.cond := by
  cases i with
  | nop => exact ⟨opField_encodeJ .., condField_encodeJ ..⟩
  | jmp => exact ⟨opField_encodeJ .., condField_encodeJ ..⟩
  | b => exact ⟨opField_encodeJ .., condField_encodeJ ..⟩
  | aopr => exact ⟨opField_encodeR .., condField_encodeR ..⟩
  | aopi => exact ⟨opField_encodeI .., condField_encodeI ..⟩
  | loadr => exact ⟨opField_encodeR .., condField_encodeR ..⟩
  | storr => exact ⟨opField_encodeR .., condField_encodeR ..⟩
  | load => exact ⟨opField_encodeI .., condField_encodeI ..⟩
  | store => exact ⟨opField_encodeI .., condField_encodeI ..⟩
  | clz => exact ⟨opField_encodeR .., condField_encodeR ..⟩
  | clof => exact ⟨opField_encodeR .., condField_encodeR ..⟩
  | clng => exact ⟨opField_encodeR .., condField_encodeR ..⟩

/-- Its reserved bits are zero (30_encoding.md R57 to R59, R72). -/
theorem reservedSet_encode (k : Config) (i : Instr) :
    reservedSet i.opcode.classify (encode k i).1 (encode k i).2 = false := by
  cases i with
  | nop => exact reservedSet_encodeJ ..
  | jmp => exact reservedSet_encodeJ ..
  | b => exact reservedSet_encodeJ ..
  | aopr => exact reservedSet_encodeR ..
  | aopi => exact reservedSet_encodeI ..
  | loadr => exact reservedSet_encodeR ..
  | storr => exact reservedSet_encodeR ..
  | load => exact reservedSet_encodeI ..
  | store => exact reservedSet_encodeI ..
  | clz => exact reservedSet_encodeR ..
  | clof => exact reservedSet_encodeR ..
  | clng => exact reservedSet_encodeR ..

/-- Its fields build it again. -/
theorem buildInstr_encode (k : Config) (i : Instr) :
    buildInstr (.core i.opcode) i.cond (encode k i).1 (encode k i).2 = .core i := by
  cases i <;> simp only [Instr.opcode, Instr.cond, encode, buildInstr, destField_encodeR, srcField_encodeR,
    aluFieldR_encodeR, destField_encodeI, aluFieldI_encodeI] <;> rfl

/-- The same three facts of an extra Instruction (30_encoding.md R62). -/
theorem head_encodeExtra (k : Config) (e : ExtraInstr) :
    opField (encodeExtra k e).1 = e.value ∧ condField (encodeExtra k e).1 = k.conds.code e.cond := by
  cases e with
  | register => exact ⟨opField_encodeR .., condField_encodeR ..⟩
  | immediate => exact ⟨opField_encodeI .., condField_encodeI ..⟩
  | jump => exact ⟨opField_encodeJ .., condField_encodeJ ..⟩

theorem reservedSet_encodeExtra (k : Config) (e : ExtraInstr) :
    reservedSet e.type (encodeExtra k e).1 (encodeExtra k e).2 = false := by
  cases e with
  | register => exact reservedSet_encodeR ..
  | immediate => exact reservedSet_encodeI ..
  | jump => exact reservedSet_encodeJ ..

theorem buildInstr_encodeExtra (k : Config) (e : ExtraInstr) :
    buildInstr (.extra e.value e.type) e.cond (encodeExtra k e).1 (encodeExtra k e).2 = .extra e := by
  cases e <;> simp only [ExtraInstr.value, ExtraInstr.type, ExtraInstr.cond, encodeExtra, buildInstr,
    destField_encodeR, srcField_encodeR, aluFieldR_encodeR, destField_encodeI, aluFieldI_encodeI] <;> rfl

/-! ## Words with their reserved bits zero are what their fields encode to -/

/-- A field that is zero has every bit zero. -/
theorem bits_of_extract_zero {w : Word} {n : Nat} (h : w.extractLsb' 0 n = 0) : ∀ i < n, w.getLsbD i = false := by
  intro i hi
  have := congrArg (fun v => v.getLsbD i) h
  simpa [hi] using this

theorem encodeR_fields {w0 w1 : Word} (h : reservedSet .register w0 w1 = false) :
    encodeR (opField w0) (condField w0) (destField w0) (srcField w0) (aluFieldR w0) = (w0, w1) := by
  obtain ⟨h0, rfl⟩ : w0.extractLsb' 0 6 = 0 ∧ w1 = 0 := by simpa [reservedSet] using h
  have hb := bits_of_extract_zero h0
  refine Prod.ext (BitVec.eq_of_getLsbD_eq fun i hi => ?_) rfl
  by_cases hl : i < 6
  · have := hb i hl
    interval_cases i <;> simp_all [encodeR, encodeHead]
  · interval_cases i <;> first
      | omega
      | simp_all [encodeR, encodeHead, opField, condField, destField, srcField, aluFieldR]

theorem encodeI_fields {w0 w1 : Word} (h : reservedSet .immediate w0 w1 = false) :
    encodeI (opField w0) (condField w0) (destField w0) (aluFieldI w0) w1 = (w0, w1) := by
  have hb := bits_of_extract_zero (n := 11) (w := w0) (by simpa [reservedSet] using h)
  refine Prod.ext (BitVec.eq_of_getLsbD_eq fun i hi => ?_) rfl
  by_cases hl : i < 11
  · have := hb i hl
    interval_cases i <;> simp_all [encodeI, encodeHead]
  · interval_cases i <;> first | omega | simp_all [encodeI, encodeHead, opField, condField, destField, aluFieldI]

theorem encodeJ_fields {w0 w1 : Word} (h : reservedSet .jump w0 w1 = false) :
    encodeJ (opField w0) (condField w0) w1 = (w0, w1) := by
  have hb := bits_of_extract_zero (n := 22) (w := w0) (by simpa [reservedSet] using h)
  refine Prod.ext (BitVec.eq_of_getLsbD_eq fun i hi => ?_) rfl
  by_cases hl : i < 22
  · have := hb i hl
    interval_cases i <;> simp_all [encodeJ, encodeHead]
  · interval_cases i <;> first | omega | simp_all [encodeJ, encodeHead, opField, condField]

end Sys2Proof
end

