-- ==== Sys2Proof/Laws/Memory.lean ====
section
/-! SUPPORT. Sys2Proof/Laws/Memory.lean: the laws of the memory list and of the memory-management unit. -/

namespace Sys2Proof.Machine

open Sys2Proof

/-! ## The list of cells -/

@[simp] theorem Memory.read_nil (a : Nat) : Memory.read [] a = none := rfl

theorem Memory.read_write_same (m : Memory) (a : Nat) (v : Word) : (m.write a v).read a = some v := by
  induction m with
  | nil => simp [Memory.write, Memory.read]
  | cons c m ih =>
    simp only [Memory.write]
    split
    · simp [Memory.read]
    · split
      · simp [Memory.read]
      · rename_i h1 h2
        simp [Memory.read, Ne.symm h2, ih]

theorem Memory.read_write_other (m : Memory) {a b : Nat} (v : Word) (h : b ≠ a) :
    (m.write a v).read b = m.read b := by
  induction m with
  | nil => simp [Memory.write, Memory.read, Ne.symm h]
  | cons c m ih =>
    simp only [Memory.write]
    split
    · simp [Memory.read, Ne.symm h]
    · split
      · rename_i h1 h2
        have : ¬ c.1 = b := by omega
        simp [Memory.read, Ne.symm h, this]
      · simp [Memory.read, ih]

/-- The addresses after a write: those before, and the one written. -/
theorem Memory.mem_write {m : Memory} {a : Nat} {v : Word} {c : Nat × Word} (h : c ∈ m.write a v) :
    c = (a, v) ∨ c ∈ m := by
  induction m with
  | nil => simpa [Memory.write] using h
  | cons d m ih =>
    simp only [Memory.write] at h
    split at h
    · rcases List.mem_cons.1 h with h | h
      · exact .inl h
      · exact .inr h
    · split at h
      · rcases List.mem_cons.1 h with h | h
        · exact .inl h
        · exact .inr (List.mem_cons_of_mem _ h)
      · rcases List.mem_cons.1 h with h | h
        · exact .inr (h ▸ List.mem_cons_self)
        · rcases ih h with h | h
          · exact .inl h
          · exact .inr (List.mem_cons_of_mem _ h)

theorem Memory.wf_nil : Memory.wf [] = true := rfl

theorem Memory.wf_iff (m : Memory) :
    m.wf = true ↔ m.Pairwise (fun c d => c.1 < d.1) ∧ ∀ c ∈ m, c.1 < 2 ^ 32 := by
  simp [Memory.wf]

/-- Every write keeps the canonical form. -/
theorem Memory.write_wf {m : Memory} {a : Nat} (v : Word) (hm : m.wf = true) (ha : a < 2 ^ 32) :
    (m.write a v).wf = true := by
  rw [Memory.wf_iff] at hm ⊢
  refine ⟨?_, fun c hc => ?_⟩
  · have hp := hm.1
    clear hm
    induction m with
    | nil => simp [Memory.write]
    | cons c m ih =>
      rw [List.pairwise_cons] at hp
      simp only [Memory.write]
      split
      · rename_i h
        refine List.pairwise_cons.2 ⟨fun d hd => ?_, List.pairwise_cons.2 hp⟩
        rcases List.mem_cons.1 hd with hd | hd
        · exact hd ▸ h
        · exact lt_trans h (hp.1 d hd)
      · split
        · rename_i h
          exact List.pairwise_cons.2 ⟨fun d hd => h ▸ hp.1 d hd, hp.2⟩
        · rename_i h1 h2
          refine List.pairwise_cons.2 ⟨fun d hd => ?_, ih hp.2⟩
          rcases Memory.mem_write hd with hd | hd
          · subst hd; simp; omega
          · exact hp.1 d hd
  · rcases Memory.mem_write hc with hc | hc
    · exact hc ▸ ha
    · exact hm.2 c hc

/-- A Word read is a listed cell. -/
theorem Memory.mem_of_read {m : Memory} {a : Nat} {w : Word} (h : m.read a = some w) : (a, w) ∈ m := by
  induction m with
  | nil => simp at h
  | cons c m ih =>
    rw [Memory.read] at h
    split at h
    · rename_i e
      simp only [Option.some.injEq] at h
      exact List.mem_cons.2 (.inl (Prod.ext e.symm h.symm))
    · exact List.mem_cons_of_mem _ (ih h)

/-! ## Address resolution -/

/-- A translation is by a listed region that contains the address, with the offset `addr - start`. -/
theorem translateAddr_some {rs : List Region} {a : Word} {p : Region × Word} (h : translateAddr rs a = some p) :
    p.1 ∈ rs ∧ regionContains p.1 a = true ∧ p.2 = a - p.1.first := by
  induction rs with
  | nil => simp [translateAddr] at h
  | cons r rs ih =>
    simp only [translateAddr] at h
    split at h
    · rename_i hc
      cases h
      exact ⟨List.mem_cons_self, hc, rfl⟩
    · exact ⟨List.mem_cons_of_mem _ (ih h).1, (ih h).2⟩

/-- What a successful resolution says. -/
theorem resolveAddr_ok {rs : List Region} {a : Word} {p : Region × Word} (h : resolveAddr rs a = .ok p) :
    translateAddr rs a = some p ∧ p.2.toNat < p.1.size := by
  unfold resolveAddr at h
  split at h
  · cases h
  · rename_i q hq
    split at h
    · cases h
    · cases h
      exact ⟨hq, by omega⟩

/-- A failed resolution is the AddressFault of the address. -/
theorem resolveAddr_error {rs : List Region} {a : Word} {k : FaultKind} (h : resolveAddr rs a = .error k) :
    k = .addressFault a := by
  unfold resolveAddr at h
  split at h
  · cases h; rfl
  · split at h
    · cases h; rfl
    · cases h

/-- The backing word of an address is kept under the address itself (log 3). -/
theorem backingKey_eq {rs : List Region} {a : Word} {p : Region × Word} (h : resolveAddr rs a = .ok p) :
    backingKey p.1 p.2 = a.toNat := by
  have ht := (translateAddr_some (resolveAddr_ok h).1).2.2
  simp [backingKey, ht]

theorem backed_iff (rs : List Region) (a : Word) : backed rs a = true ↔ ∃ p, resolveAddr rs a = .ok p := by
  unfold backed
  split <;> simp_all

/-! ## MemRead and MemWrite -/

/-- Everything MemRead can answer. -/
theorem memRead_cases (s : State) (a : Word) :
    (memRead s a = .error (.addressFault a) ∧ backed s.config.regions a = false) ∨
    (memRead s a = .error (.unwrittenRead a) ∧ backed s.config.regions a = true ∧ s.mem.read a.toNat = none) ∨
    (∃ w, memRead s a = .ok w ∧ backed s.config.regions a = true ∧ s.mem.read a.toNat = some w) := by
  unfold memRead backed
  cases h : resolveAddr s.config.regions a with
  | error k => exact .inl ⟨by rw [resolveAddr_error h], rfl⟩
  | ok p =>
    simp only [backingKey_eq h]
    cases hm : Memory.read s.mem a.toNat with
    | none => exact .inr (.inl ⟨rfl, by simp, rfl⟩)
    | some w => exact .inr (.inr ⟨w, rfl, by simp, rfl⟩)

theorem memRead_ok_iff (s : State) (a w : Word) :
    memRead s a = .ok w ↔ backed s.config.regions a = true ∧ s.mem.read a.toNat = some w := by
  rcases memRead_cases s a with ⟨h, hb⟩ | ⟨h, hb, hm⟩ | ⟨v, h, hb, hm⟩ <;> simp [h, hb]
  · simp [hm]
  · simp [hm]

/-- MemRead depends only on the memory and the regions. -/
theorem memRead_congr {s t : State} (hm : t.mem = s.mem) (hk : t.config = s.config) (a : Word) :
    memRead t a = memRead s a := by
  unfold memRead
  rw [hm, hk]

/-- MemWrite of a backed address: the Word is stored under the address, and a console write emits its event. -/
theorem memWrite_ok {s t : State} {a v : Word} (h : memWrite s a v = .ok t) :
    backed s.config.regions a = true ∧
    t = { s with mem := s.mem.write a.toNat v
                 consoleOut := s.consoleOut ++ storeEvents s.config.regions a v } := by
  unfold memWrite at h
  cases hr : resolveAddr s.config.regions a with
  | error k => simp [hr] at h
  | ok p =>
    simp only [hr, backingKey_eq hr, Except.ok.injEq] at h
    refine ⟨by simp [backed, hr], ?_⟩
    rw [← h]
    have : consoleAfter p.1.kind s.consoleOut v = s.consoleOut ++ storeEvents s.config.regions a v := by
      cases hk : p.1.kind <;> simp [consoleAfter, storeEvents, inConsole, hr, hk]
    rw [this]

/-- MemWrite of a backed address succeeds. -/
theorem memWrite_of_backed {s : State} {a : Word} (v : Word) (h : backed s.config.regions a = true) :
    memWrite s a v = .ok { s with mem := s.mem.write a.toNat v
                                  consoleOut := s.consoleOut ++ storeEvents s.config.regions a v } := by
  obtain ⟨p, hp⟩ := (backed_iff _ _).1 h
  cases hw : memWrite s a v with
  | error k => simp [memWrite, hp] at hw
  | ok t => rw [(memWrite_ok hw).2]

/-- MemWrite of an address no backing word holds is an AddressFault. -/
theorem memWrite_of_unbacked {s : State} {a : Word} (v : Word) (h : backed s.config.regions a = false) :
    memWrite s a v = .error (.addressFault a) := by
  unfold memWrite
  cases hr : resolveAddr s.config.regions a with
  | error k => simp [resolveAddr_error hr]
  | ok p => simp [backed, hr] at h

/-- MemWrite keeps the canonical form. -/
theorem memWrite_wf {s t : State} {a v : Word} (hm : s.mem.wf = true) (h : memWrite s a v = .ok t) :
    t.mem.wf = true := by
  obtain ⟨-, rfl⟩ := memWrite_ok h
  exact Memory.write_wf v hm a.isLt

/-- The memory at reset has the canonical form. -/
theorem reset_mem_wf : State.reset.mem.wf = true := rfl

/-- Reading the address a MemWrite stored to. -/
theorem memRead_memWrite_same {s t : State} {a v : Word} (h : memWrite s a v = .ok t) : memRead t a = .ok v := by
  obtain ⟨hb, rfl⟩ := memWrite_ok h
  rw [memRead_ok_iff]
  exact ⟨hb, Memory.read_write_same ..⟩

/-- Reading any other address after a MemWrite. -/
theorem memRead_memWrite_other {s t : State} {a b v : Word} (h : memWrite s a v = .ok t) (hne : b ≠ a) :
    memRead t b = memRead s b := by
  obtain ⟨-, rfl⟩ := memWrite_ok h
  have hn : b.toNat ≠ a.toNat := fun e => hne (BitVec.eq_of_toNat_eq e)
  unfold memRead
  cases hr : resolveAddr s.config.regions b with
  | error k => rfl
  | ok p => simp only [backingKey_eq hr, Memory.read_write_other _ _ hn]

end Sys2Proof.Machine
end

