-- ==== Sys2Proof/Laws/Uop.lean ====
section
/-! SUPPORT. Sys2Proof/Laws/Uop.lean: what one micro-operation can do, said once, and the effect of each
micro-operation the control unit issues. -/

namespace Sys2Proof.Machine

open Sys2Proof

/-! ## Runs -/

@[simp] theorem Run.andThen_ok (s : State) (f : State → Run) : (Run.ok s).andThen f = f s := rfl
@[simp] theorem Run.andThen_raised (k : FaultKind) (s : State) (f : State → Run) :
    (Run.raised k s).andThen f = .raised k s := rfl
@[simp] theorem Run.finish_ok (s : State) (f : State → State) : (Run.ok s).finish f = .next (f s) := rfl
@[simp] theorem Run.finish_raised (k : FaultKind) (s : State) (f : State → State) :
    (Run.raised k s).finish f = .fault (raiseFault k s) := rfl

/-- A sequence that is still running ran both parts. -/
theorem Run.andThen_eq_ok {r : Run} {f : State → Run} {t : State} (h : r.andThen f = .ok t) :
    ∃ s, r = .ok s ∧ f s = .ok t := by
  cases r with
  | ok s => exact ⟨s, rfl, h⟩
  | raised k s => cases h

/-- A sequence that faulted did so in one of its parts. -/
theorem Run.andThen_eq_raised {r : Run} {f : State → Run} {k : FaultKind} {t : State}
    (h : r.andThen f = .raised k t) : r = .raised k t ∨ ∃ s, r = .ok s ∧ f s = .raised k t := by
  cases r with
  | ok s => exact .inr ⟨s, rfl, h⟩
  | raised k' s => exact .inl h

/-- A pulse that answers a next state ran to its end. -/
theorem Run.finish_eq_next {r : Run} {f : State → State} {t : State} (h : r.finish f = .next t) :
    ∃ s, r = .ok s ∧ t = f s := by
  cases r with
  | ok s => cases h; exact ⟨s, rfl, rfl⟩
  | raised k s => cases h

/-- A pulse that stops stopped with a raised fault. -/
theorem Run.finish_eq_fault {r : Run} {f : State → State} {e : Fault} (h : r.finish f = .fault e) :
    ∃ k s, r = .raised k s ∧ e = raiseFault k s := by
  cases r with
  | ok s => cases h
  | raised k s => cases h; exact ⟨k, s, rfl, rfl⟩

/-! ## What a micro-operation never changes -/

theorem busRead_frame (r : BusAddr) (s : State) : ∃ v, (busRead r s).1 = { s with mdr := v } := by
  unfold busRead
  split
  · split <;> exact ⟨_, rfl⟩
  · exact ⟨s.mdr, rfl⟩

theorem feedA_frame (src : Option BusAddr) (s : State) :
    ∃ v x r, (feedA src s).1 = { s with mdr := v, aluA := x, selA := r } := by
  cases src with
  | none => exact ⟨s.mdr, s.aluA, s.selA, rfl⟩
  | some r =>
    obtain ⟨v, h⟩ := busRead_frame r s
    exact ⟨v, (busRead r s).1.readCell r, r, by simp only [feedA, h]⟩

theorem feedB_frame (src : Option BusAddr) (s : State) :
    ∃ v x r, (feedB src s).1 = { s with mdr := v, aluB := x, selB := r } := by
  cases src with
  | none => exact ⟨s.mdr, s.aluB, s.selB, rfl⟩
  | some r =>
    obtain ⟨v, h⟩ := busRead_frame r s
    exact ⟨v, (busRead r s).1.readCell r, r, by simp only [feedB, h]⟩

/-- What an A-feed selection latches: the value of a source other than MDR; a bus not reselected keeps its latch. -/
theorem feedA_latch (src : Option BusAddr) (s : State) :
    ∃ v x r, (feedA src s).1 = { s with mdr := v, aluA := x, selA := r } ∧
      (∀ q, src = some q → r = q ∧ (q ≠ .mdr → x = s.readCell q)) ∧ (src = none → r = s.selA ∧ x = s.aluA) := by
  cases src with
  | none => exact ⟨s.mdr, s.aluA, s.selA, rfl, nofun, fun _ => ⟨rfl, rfl⟩⟩
  | some r =>
    obtain ⟨v, h⟩ := busRead_frame r s
    refine ⟨v, (busRead r s).1.readCell r, r, by simp only [feedA, h], ?_, nofun⟩
    rintro q ⟨⟩
    refine ⟨rfl, fun hq => ?_⟩
    rw [h]
    cases r <;> first | rfl | exact absurd rfl hq

/-- The same for a B-feed selection. -/
theorem feedB_latch (src : Option BusAddr) (s : State) :
    ∃ v x r, (feedB src s).1 = { s with mdr := v, aluB := x, selB := r } ∧
      (∀ q, src = some q → r = q ∧ (q ≠ .mdr → x = s.readCell q)) ∧ (src = none → r = s.selB ∧ x = s.aluB) := by
  cases src with
  | none => exact ⟨s.mdr, s.aluB, s.selB, rfl, nofun, fun _ => ⟨rfl, rfl⟩⟩
  | some r =>
    obtain ⟨v, h⟩ := busRead_frame r s
    refine ⟨v, (busRead r s).1.readCell r, r, by simp only [feedB, h], ?_, nofun⟩
    rintro q ⟨⟩
    refine ⟨rfl, fun hq => ?_⟩
    rw [h]
    cases r <;> first | rfl | exact absurd rfl hq

theorem latchUop_frame (srcA srcB : Option BusAddr) (op : Microcode) (dst : BusAddr) (s : State) :
    ∃ v x y r q, (latchUop srcA srcB op dst s).1
      = { s with mdr := v, aluA := x, aluB := y, selA := r, selB := q, aluOp := op, selW := dst } := by
  obtain ⟨va, xa, ra, ha⟩ := feedA_frame srcA s
  obtain ⟨vb, xb, rb, hb⟩ := feedB_frame srcB (feedA srcA s).1
  rw [ha] at hb
  exact ⟨vb, xa, xb, ra, rb, by simp only [latchUop, ha, hb]⟩

/-- Everything a writeback can do: write its cell; or, for MDR, write memory too. -/
theorem busWrite_cases (r : BusAddr) (v : Word) (s : State) :
    (r ≠ .mdr ∧ busWrite r v s = (s.writeCell r v, none)) ∨
    (r = .mdr ∧ backed s.config.regions s.mar = true ∧
      busWrite r v s = ({ s with mdr := v, mem := s.mem.write s.mar.toNat v
                                 consoleOut := s.consoleOut ++ storeEvents s.config.regions s.mar v }, none)) ∨
    (r = .mdr ∧ backed s.config.regions s.mar = false ∧
      busWrite r v s = ({ s with mdr := v }, some (.addressFault s.mar))) := by
  by_cases h : r = .mdr
  · subst h
    right
    cases hb : backed s.config.regions s.mar with
    | true => exact .inl ⟨rfl, rfl, by simp [busWrite, BusAddr.variants, memWrite_of_backed, hb]⟩
    | false => exact .inr ⟨rfl, rfl, by simp [busWrite, BusAddr.variants, memWrite_of_unbacked, hb]⟩
  · left
    refine ⟨h, ?_⟩
    cases r <;> first | rfl | exact absurd rfl h

/-- Everything the second half of a micro-operation can do. -/
theorem writebackUop_cases (dst : BusAddr) (s : State) :
    (dst ≠ .mdr ∧ writebackUop dst s
      = ({ (s.writeCell dst (aluOut s.aluA s.aluB s.aluOp)).commitFlags (aluFlags s.aluA s.aluB s.aluOp) with
            selW := .void }, none)) ∨
    (dst = .mdr ∧ backed s.config.regions s.mar = true ∧ writebackUop dst s
      = ({ s.commitFlags (aluFlags s.aluA s.aluB s.aluOp) with
            mdr := aluOut s.aluA s.aluB s.aluOp, selW := .void
            mem := s.mem.write s.mar.toNat (aluOut s.aluA s.aluB s.aluOp)
            consoleOut := s.consoleOut ++ storeEvents s.config.regions s.mar (aluOut s.aluA s.aluB s.aluOp) }, none)) ∨
    (dst = .mdr ∧ backed s.config.regions s.mar = false ∧ writebackUop dst s
      = ({ s.commitFlags (aluFlags s.aluA s.aluB s.aluOp) with
            mdr := aluOut s.aluA s.aluB s.aluOp, selW := .void }, some (.addressFault s.mar))) := by
  rcases busWrite_cases dst (aluOut s.aluA s.aluB s.aluOp) s with ⟨h, hw⟩ | ⟨h, hb, hw⟩ | ⟨h, hb, hw⟩
  · exact .inl ⟨h, by simp only [writebackUop, compute, hw]⟩
  · refine .inr (.inl ⟨h, hb, ?_⟩)
    simp only [writebackUop, compute, hw, State.commitFlags]
    split <;> rfl
  · refine .inr (.inr ⟨h, hb, ?_⟩)
    simp only [writebackUop, compute, hw, State.commitFlags]
    split <;> rfl

/-- What a completed second half leaves: its cell and no other, the flags while `fe` is true, latches and selections as
they were (41_fabric.md R116, R117). -/
theorem writebackUop_ok {dst : BusAddr} {s : State} (hc : ∀ n, dst ≠ .const n) (h : (writebackUop dst s).2 = none) :
    (dst ≠ .void → (writebackUop dst s).1.readCell dst = (compute s.aluA s.aluB s.aluOp).1) ∧
    (∀ r, r ≠ dst → (writebackUop dst s).1.readCell r = s.readCell r) ∧
    (writebackUop dst s).1.flags = (if s.fe then (compute s.aluA s.aluB s.aluOp).2 else s.flags) ∧
    (writebackUop dst s).1.aluA = s.aluA ∧ (writebackUop dst s).1.aluB = s.aluB ∧
    (writebackUop dst s).1.aluOp = s.aluOp ∧
    (writebackUop dst s).1.selA = s.selA ∧ (writebackUop dst s).1.selB = s.selB := by
  have hgp : ∀ (c : RegCode) (v : Word) (r : BusAddr), r ≠ .gp c →
      State.readCell { s with gpr := s.gpr.set c.toNat v } r = s.readCell r := by
    intro c v r hr
    cases r with
    | gp c' =>
      exact reg_set_other s.gpr v fun e => hr (by rw [e])
    | _ => rfl
  rcases writebackUop_cases dst s with ⟨hd, hw⟩ | ⟨rfl, -, hw⟩ | ⟨-, -, hw⟩
  · rw [hw]
    cases hf : s.fe <;> cases dst <;>
      first
      | exact absurd rfl (hc _)
      | exact absurd rfl hd
      | (refine ⟨fun hv => ?_, fun r hr => ?_, ?_⟩
         · first | exact absurd rfl hv | simp [State.commitFlags, State.writeCell, State.readCell, hf]
         · simp only [State.commitFlags, State.writeCell, hf, if_true, Bool.false_eq_true, if_false]
           first | exact hgp _ _ _ hr | (cases r <;> first | rfl | exact absurd rfl hr)
         · simp [State.commitFlags, State.writeCell, hf])
  · rw [hw]
    cases hf : s.fe <;>
      exact ⟨fun _ => rfl, fun r hr => by
        simp only [State.commitFlags, hf, if_true, Bool.false_eq_true, if_false]
        cases r <;> first | rfl | exact absurd rfl hr, by simp [State.commitFlags, hf]⟩
  · rw [hw] at h; cases h

/-- No micro-operation changes the parameters, `fe`, `cu`, `cur` or the fault record, and each leaves `selW` at VOID
(41_fabric.md R115). -/
theorem writebackUop_frame (dst : BusAddr) (s : State) :
    (writebackUop dst s).1.config = s.config ∧ (writebackUop dst s).1.fe = s.fe ∧
    (writebackUop dst s).1.cu = s.cu ∧ (writebackUop dst s).1.cur = s.cur ∧
    (writebackUop dst s).1.fault = s.fault ∧ (writebackUop dst s).1.selW = .void := by
  rcases writebackUop_cases dst s with ⟨-, hw⟩ | ⟨-, -, hw⟩ | ⟨-, -, hw⟩ <;> simp [hw]

/-- No micro-operation changes the parameters, `fe`, `cu`, `cur` or the fault record, and each leaves `selW` at VOID
(41_fabric.md R115). -/
theorem commitUop_frame (srcA srcB : Option BusAddr) (op : Microcode) (dst : BusAddr) (s : State) :
    (commitUop srcA srcB op dst s).1.config = s.config ∧ (commitUop srcA srcB op dst s).1.fe = s.fe ∧
    (commitUop srcA srcB op dst s).1.cu = s.cu ∧ (commitUop srcA srcB op dst s).1.cur = s.cur ∧
    (commitUop srcA srcB op dst s).1.fault = s.fault ∧ (commitUop srcA srcB op dst s).1.selW = .void := by
  obtain ⟨v, x, y, r, q, hl⟩ := latchUop_frame srcA srcB op dst s
  simpa only [commitUop, hl] using writebackUop_frame dst (latchUop srcA srcB op dst s).1

/-- Everything a micro-operation can answer: a fabric error with the state untouched, the whole micro-operation, or a
memory fault with the free choice of its partial writes. -/
theorem uop_cases (srcA srcB : Option BusAddr) (op : Microcode) (dst : BusAddr) (s : State) :
    (∃ e, resolveUop s.config srcA srcB dst = some e ∧ uop srcA srcB op dst s = .raised (.fabricError e) s) ∨
    (resolveUop s.config srcA srcB dst = none ∧ (commitUop srcA srcB op dst s).2 = none ∧
      uop srcA srcB op dst s = .ok (commitUop srcA srcB op dst s).1) ∨
    (∃ k, resolveUop s.config srcA srcB dst = none ∧ (commitUop srcA srcB op dst s).2 = some k ∧
      uop srcA srcB op dst s = .raised k (s.partialWrites (commitUop srcA srcB op dst s).1)) := by
  unfold uop
  cases hr : resolveUop s.config srcA srcB dst with
  | some e => exact .inl ⟨e, rfl, rfl⟩
  | none =>
    rcases hc : commitUop srcA srcB op dst s with ⟨t, _ | k⟩
    · exact .inr (.inl ⟨rfl, rfl, rfl⟩)
    · exact .inr (.inr ⟨k, rfl, rfl, rfl⟩)

/-- What a completed micro-operation keeps. -/
theorem uop_ok_frame {srcA srcB : Option BusAddr} {op : Microcode} {dst : BusAddr} {s t : State}
    (h : uop srcA srcB op dst s = .ok t) :
    t.config = s.config ∧ t.fe = s.fe ∧ t.cu = s.cu ∧ t.cur = s.cur ∧ t.fault = s.fault ∧ t.selW = .void := by
  rcases uop_cases srcA srcB op dst s with ⟨e, -, hu⟩ | ⟨-, -, hu⟩ | ⟨k, -, -, hu⟩ <;> rw [hu] at h <;> cases h
  exact commitUop_frame srcA srcB op dst s

/-- The checks pass exactly where every reselected bus names a cell of its whitelist (41_fabric.md R112, R114). -/
theorem resolveUop_eq_none_iff (k : Config) (srcA srcB : Option BusAddr) (dst : BusAddr) :
    resolveUop k srcA srcB dst = none ↔
      (∀ r, srcA = some r → r.feedListed k = true) ∧ (∀ r, srcB = some r → r.feedListed k = true) ∧
      dst.writebackListed k = true := by
  have access_void : ∀ r : BusAddr, r.access ≠ .writeOnly ↔ r ≠ .void := by intro r; cases r <;> simp [BusAddr.access]
  unfold resolveUop
  split
  · rename_i h
    cases srcA <;> cases srcB <;> simp_all [feedNamed, BusAddr.feedListed, BusAddr.writebackListed]
  · split <;> rename_i h h' <;>
      cases srcA <;> cases srcB <;>
      simp_all [feedNamed, feedReadable, BusAddr.feedListed, BusAddr.writebackListed]

/-! ## The micro-operations of the control unit, with `fe` false -/

@[simp] theorem exists_gp (k : Config) (c : RegCode) : (BusAddr.gp c).exists k = k.isGpr c := rfl

/-- `MAR <- PC` (42_control_unit.md R124). -/
theorem uop_pc_to_mar {s : State} (hf : s.fe = false) :
    uop (some .pc) none transferA .mar s
      = .ok { s with aluA := s.pc, selA := .pc, aluOp := transferA, mar := s.pc, selW := .void } := by
  simp [uop, resolveUop, feedNamed, feedReadable, BusAddr.exists,
    BusAddr.access, commitUop, latchUop, writebackUop, feedA, feedB, busRead, busWrite, BusAddr.variants, State.commitFlags, hf]

/-- `MAR <- PC + 1` (42_control_unit.md R125). -/
theorem uop_pcInc_to_mar {s : State} (hf : s.fe = false) :
    uop (some .pc) none aIncrement .mar s
      = .ok { s with aluA := s.pc, selA := .pc, aluOp := aIncrement, mar := s.pc + 1, selW := .void } := by
  simp [uop, resolveUop, feedNamed, feedReadable, BusAddr.exists,
    BusAddr.access, commitUop, latchUop, writebackUop, feedA, feedB, busRead, busWrite, BusAddr.variants, State.commitFlags, hf]

/-- `PC <- PC + 1` (42_control_unit.md R126). -/
theorem uop_pcInc_to_pc {s : State} (hf : s.fe = false) :
    uop (some .pc) none aIncrement .pc s
      = .ok { s with aluA := s.pc, selA := .pc, aluOp := aIncrement, pc := s.pc + 1, selW := .void } := by
  simp [uop, resolveUop, feedNamed, feedReadable, BusAddr.exists,
    BusAddr.access, commitUop, latchUop, writebackUop, feedA, feedB, busRead, busWrite, BusAddr.variants, State.commitFlags, hf]

/-- `PC <- IRB` (45_control_transfer.md R139). -/
theorem uop_irb_to_pc {s : State} (hf : s.fe = false) :
    uop none (some .irb) transferB .pc s
      = .ok { s with aluB := s.irb, selB := .irb, aluOp := transferB, pc := s.irb, selW := .void } := by
  simp [uop, resolveUop, feedNamed, feedReadable, BusAddr.exists,
    BusAddr.access, commitUop, latchUop, writebackUop, feedA, feedB, busRead, busWrite, BusAddr.variants, State.commitFlags, hf]

/-- `MAR <- IRB` (44_memory_instructions.md R137, R138). -/
theorem uop_irb_to_mar {s : State} (hf : s.fe = false) :
    uop none (some .irb) transferB .mar s
      = .ok { s with aluB := s.irb, selB := .irb, aluOp := transferB, mar := s.irb, selW := .void } := by
  simp [uop, resolveUop, feedNamed, feedReadable, BusAddr.exists,
    BusAddr.access, commitUop, latchUop, writebackUop, feedA, feedB, busRead, busWrite, BusAddr.variants, State.commitFlags, hf]

/-- `MAR <- x[GPr]` (44_memory_instructions.md R135, R136). -/
theorem uop_gp_to_mar {s : State} {r : RegCode} (hf : s.fe = false) (hr : s.config.isGpr r = true) :
    uop (some (.gp r)) none transferA .mar s
      = .ok { s with aluA := s.reg r, selA := .gp r, aluOp := transferA, mar := s.reg r, selW := .void } := by
  simp [uop, resolveUop, feedNamed, feedReadable, BusAddr.exists,
    BusAddr.access, commitUop, latchUop, writebackUop, feedA, feedB, busRead, busWrite, BusAddr.variants, State.commitFlags, hf, hr]

/-- A register code that names no register is a FabricError with the state untouched (41_fabric.md R114). -/
theorem uop_bad_gp {s : State} {srcB : Option BusAddr} {op : Microcode} {dst : BusAddr} {r : RegCode}
    (hr : s.config.isGpr r = false) :
    uop (some (.gp r)) srcB op dst s = .raised (.fabricError .illegalAddress) s := by
  simp [uop, resolveUop, feedNamed, hr]

/-- `aluA <- x[GPd]; aluB <- x[GPr]; x[GPd] <- out; flags <- fl` (43_alu_instructions.md R133), `fe` being true. -/
theorem uop_alu_reg {s : State} {d r : RegCode} {op : Microcode} (hf : s.fe = true)
    (hd : s.config.isGpr d = true) (hr : s.config.isGpr r = true) :
    uop (some (.gp d)) (some (.gp r)) op (.gp d) s
      = .ok { s with
          gpr := s.gpr.set d.toNat (compute (s.reg d) (s.reg r) op).1
          flags := (compute (s.reg d) (s.reg r) op).2
          aluA := s.reg d, selA := .gp d, aluB := s.reg r, selB := .gp r, aluOp := op, selW := .void } := by
  simp [uop, resolveUop, feedNamed, feedReadable, BusAddr.exists,
    BusAddr.access, commitUop, latchUop, writebackUop, feedA, feedB, busRead, busWrite, BusAddr.variants, State.commitFlags, hf, hd, hr]

/-- The same with the immediate in IRB as operand B (43_alu_instructions.md R134). -/
theorem uop_alu_imm {s : State} {d : RegCode} {op : Microcode} (hf : s.fe = true)
    (hd : s.config.isGpr d = true) :
    uop (some (.gp d)) (some .irb) op (.gp d) s
      = .ok { s with
          gpr := s.gpr.set d.toNat (compute (s.reg d) s.irb op).1
          flags := (compute (s.reg d) s.irb op).2
          aluA := s.reg d, selA := .gp d, aluB := s.irb, selB := .irb, aluOp := op, selW := .void } := by
  simp [uop, resolveUop, feedNamed, feedReadable, BusAddr.exists,
    BusAddr.access, commitUop, latchUop, writebackUop, feedA, feedB, busRead, busWrite, BusAddr.variants, State.commitFlags, hf, hd]

/-- The checks pass for MDR as B-feed source and any cell of the Writeback whitelist as destination. -/
theorem resolveUop_mdr {k : Config} {r : BusAddr} (hr : r.writebackListed k = true) :
    resolveUop k none (some .mdr) r = none :=
  (resolveUop_eq_none_iff k none (some .mdr) r).2 ⟨nofun, fun _ h => by cases h; rfl, hr⟩

/-- The checks pass for a named register as A-feed source and MDR as destination. -/
theorem resolveUop_gp_mdr {k : Config} {d : RegCode} (hd : k.isGpr d = true) :
    resolveUop k (some (.gp d)) none .mdr = none := by
  simp [resolveUop, feedNamed, feedReadable, BusAddr.exists, hd,
    BusAddr.access]

/-- The first half of `uop(keep, MDR, TransferB, r)` when the MemRead answers. -/
theorem latchUop_mdr_ok {s : State} {op : Microcode} {r : BusAddr} {w : Word} (hm : memRead s s.mar = .ok w) :
    latchUop none (some .mdr) op r s
      = ({ s with mdr := w, aluB := w, selB := .mdr, aluOp := op, selW := r }, none) := by
  simp [latchUop, feedA, feedB, busRead, BusAddr.variants, hm]

/-- The first half of `uop(keep, MDR, TransferB, r)` when the MemRead faults. -/
theorem latchUop_mdr_error {s : State} {op : Microcode} {r : BusAddr} {k : FaultKind} (hm : memRead s s.mar = .error k) :
    latchUop none (some .mdr) op r s
      = ({ s with mdr := Config.faultedReadWord s.mar, aluB := Config.faultedReadWord s.mar, selB := .mdr,
                  aluOp := op, selW := r }, some k) := by
  simp [latchUop, feedA, feedB, busRead, BusAddr.variants, hm]

/-- `MDR <- MemRead(MAR, 1); x[r] <- MDR` for a cell `r` other than MDR on the Writeback whitelist. -/
theorem uop_mdr_to {s : State} {r : BusAddr} {w : Word} (hf : s.fe = false) (hr : r.writebackListed s.config = true)
    (hv : r ≠ .mdr) (hm : memRead s s.mar = .ok w) :
    uop none (some .mdr) transferB r s
      = .ok { ({ s with mdr := w, aluB := w, selB := .mdr, aluOp := transferB }).writeCell r w with
          selW := .void } := by
  unfold uop
  rw [resolveUop_mdr hr]
  simp only [commitUop, latchUop_mdr_ok hm]
  rcases writebackUop_cases r { s with mdr := w, aluB := w, selB := .mdr, aluOp := transferB, selW := r } with
    ⟨-, hw⟩ | ⟨h, -⟩ | ⟨h, -⟩
  · simp only [hw, aluOut_transferB, Option.none_or]
    rw [commitFlags_off (by simp [hf])]
    cases r <;> simp
  · exact absurd h hv
  · exact absurd h hv

/-- The same when the MemRead faults: its fault, with the free choice of which of the micro-operation's cells show. -/
theorem uop_mdr_to_fault {s : State} {r : BusAddr} {k : FaultKind} (hf : s.fe = false)
    (hr : r.writebackListed s.config = true) (hv : r ≠ .mdr) (hm : memRead s s.mar = .error k) :
    uop none (some .mdr) transferB r s
      = .raised k (s.partialWrites
          { ({ s with mdr := Config.faultedReadWord s.mar, aluB := Config.faultedReadWord s.mar, selB := .mdr,
                      aluOp := transferB }).writeCell r (Config.faultedReadWord s.mar) with selW := .void }) := by
  unfold uop
  rw [resolveUop_mdr hr]
  simp only [commitUop, latchUop_mdr_error hm]
  rcases writebackUop_cases r { s with
      mdr := Config.faultedReadWord s.mar, aluB := Config.faultedReadWord s.mar, selB := .mdr,
      aluOp := transferB, selW := r } with ⟨-, hw⟩ | ⟨h, -⟩ | ⟨h, -⟩
  · simp only [hw, aluOut_transferB, Option.some_or]
    rw [commitFlags_off (by simp [hf])]
    cases r <;> simp
  · exact absurd h hv
  · exact absurd h hv

/-- `MDR <- x[GPd]; MemWrite(MAR, 1, x[GPd])` at a backed address (44_memory_instructions.md R136, R138). -/
theorem uop_gp_to_mdr {s : State} {d : RegCode} (hf : s.fe = false) (hd : s.config.isGpr d = true)
    (hb : backed s.config.regions s.mar = true) :
    uop (some (.gp d)) none transferA .mdr s
      = .ok { s with
          aluA := s.reg d, selA := .gp d, aluOp := transferA, mdr := s.reg d, selW := .void
          mem := s.mem.write s.mar.toNat (s.reg d)
          consoleOut := s.consoleOut ++ storeEvents s.config.regions s.mar (s.reg d) } := by
  unfold uop
  rw [resolveUop_gp_mdr hd]
  simp [commitUop, latchUop, writebackUop, feedA, feedB, busRead, busWrite, BusAddr.variants, State.commitFlags, hf,
    memWrite_of_backed, hb]

/-- The same at an address no backing word holds: AddressFault, with the free choice of which cells show. -/
theorem uop_gp_to_mdr_fault {s : State} {d : RegCode} (hf : s.fe = false) (hd : s.config.isGpr d = true)
    (hb : backed s.config.regions s.mar = false) :
    uop (some (.gp d)) none transferA .mdr s
      = .raised (.addressFault s.mar) (s.partialWrites
          { s with aluA := s.reg d, selA := .gp d, aluOp := transferA, mdr := s.reg d, selW := .void }) := by
  unfold uop
  rw [resolveUop_gp_mdr hd]
  simp [commitUop, latchUop, writebackUop, feedA, feedB, busRead, busWrite, BusAddr.variants, State.commitFlags, hf,
    memWrite_of_unbacked, hb]

/-! ## The free choice of partial writes (log 12): what it can never change -/

@[simp] theorem partialWrites_config (s t : State) : (s.partialWrites t).config = t.config := by simp [State.partialWrites]

@[simp] theorem partialWrites_fe (s t : State) : (s.partialWrites t).fe = t.fe := by simp [State.partialWrites]

@[simp] theorem partialWrites_selW (s t : State) : (s.partialWrites t).selW = t.selW := by simp [State.partialWrites]

@[simp] theorem partialWrites_cu (s t : State) : (s.partialWrites t).cu = t.cu := by simp [State.partialWrites]

@[simp] theorem partialWrites_cur (s t : State) : (s.partialWrites t).cur = t.cur := by simp [State.partialWrites]

@[simp] theorem partialWrites_fault (s t : State) : (s.partialWrites t).fault = t.fault := by simp [State.partialWrites]

@[simp] theorem partialWrites_mem (s t : State) : (s.partialWrites t).mem = s.mem := by simp [State.partialWrites]

@[simp] theorem partialWrites_consoleOut (s t : State) : (s.partialWrites t).consoleOut = s.consoleOut := by simp [State.partialWrites]

/-- A register cell both states agree on is not changed by the choice. -/
theorem partialWrites_pc {s t : State} (h : t.pc = s.pc) : (s.partialWrites t).pc = s.pc := by
  simp [State.partialWrites, h]

theorem partialWrites_mar {s t : State} (h : t.mar = s.mar) : (s.partialWrites t).mar = s.mar := by
  simp [State.partialWrites, h]

theorem partialWrites_mdr {s t : State} (h : t.mdr = s.mdr) : (s.partialWrites t).mdr = s.mdr := by
  simp [State.partialWrites, h]

theorem partialWrites_ira {s t : State} (h : t.ira = s.ira) : (s.partialWrites t).ira = s.ira := by
  simp [State.partialWrites, h]

theorem partialWrites_irb {s t : State} (h : t.irb = s.irb) : (s.partialWrites t).irb = s.irb := by
  simp [State.partialWrites, h]

theorem partialWrites_flags {s t : State} (h : t.flags = s.flags) : (s.partialWrites t).flags = s.flags := by
  simp [State.partialWrites, h]

theorem partialWrites_aluA {s t : State} (h : t.aluA = s.aluA) : (s.partialWrites t).aluA = s.aluA := by
  simp [State.partialWrites, h]

theorem partialWrites_aluB {s t : State} (h : t.aluB = s.aluB) : (s.partialWrites t).aluB = s.aluB := by
  simp [State.partialWrites, h]

theorem partialWrites_aluOp {s t : State} (h : t.aluOp = s.aluOp) : (s.partialWrites t).aluOp = s.aluOp := by
  simp [State.partialWrites, h]

theorem partialWrites_selA {s t : State} (h : t.selA = s.selA) : (s.partialWrites t).selA = s.selA := by
  simp [State.partialWrites, h]

theorem partialWrites_selB {s t : State} (h : t.selB = s.selB) : (s.partialWrites t).selB = s.selB := by
  simp [State.partialWrites, h]

end Sys2Proof.Machine
end

