-- ==== Sys2Proof/Laws/Execute.lean ====
section
/-! SUPPORT. Sys2Proof/Laws/Execute.lean: everything the Execute phase and a step can do. -/

namespace Sys2Proof.Machine

open Sys2Proof

theorem executePhase_true {c : Cond} {r : State → Run} {s : State} (h : CondTrue c s) :
    executePhase c r s = (r s).finish State.endExecute := by
  simp only [executePhase, h]

theorem executePhase_false {c : Cond} {r : State → Run} {s : State} (h : CondFalse c s) :
    executePhase c r s = .next { s with cu := .fetch1 } := by
  simp only [executePhase, h]

theorem executePhase_reserved {c : Cond} {r : State → Run} {s : State} (h : CondReserved c) :
    executePhase c r s = .fault (raiseFault (.decodeError .reservedCondition) s) := by
  rcases h with rfl | rfl <;> rfl

/-- An Execute phase that answers a next state had a false condition and changed nothing but `cu`, or ran its routine to
the end (42_control_unit.md R128, R130). -/
theorem executePhase_next {c : Cond} {r : State → Run} {s t : State} (h : executePhase c r s = .next t) :
    (CondFalse c s ∧ t = { s with cu := .fetch1 }) ∨ (CondTrue c s ∧ ∃ u, r s = .ok u ∧ t = u.endExecute) := by
  unfold executePhase at h
  split at h
  · cases h
  · rename_i hc; cases h; exact .inl ⟨hc, rfl⟩
  · rename_i hc; exact .inr ⟨hc, Run.finish_eq_next h⟩

/-- An Execute phase that stops had a reserved condition, or its routine raised (42_control_unit.md R129). -/
theorem executePhase_fault {c : Cond} {r : State → Run} {s : State} {e : Fault} (h : executePhase c r s = .fault e) :
    (condHolds c s.flags = .reserved ∧ e = raiseFault (.decodeError .reservedCondition) s) ∨
    (CondTrue c s ∧ ∃ k u, r s = .raised k u ∧ e = raiseFault k u) := by
  unfold executePhase at h
  split at h
  · rename_i hc; cases h; exact .inl ⟨hc, rfl⟩
  · cases h
  · rename_i hc; exact .inr ⟨hc, Run.finish_eq_fault h⟩

/-- The routine of each instruction (42_control_unit.md R131). -/
def routineOf (i : Instr) (s : State) : State → Run :=
  match i with
  | .nop _ _ => Run.ok
  | .jmp _ _ => jumpRoutine
  | .b _ _ => jumpRoutine
  | .aopr _ d r a => aluRoutine d (regOperand r) a
  | .aopi _ d a _ => aluRoutine d highWordOperand a
  | .loadr _ d r _ => fun t => (addressFromReg r t).andThen (loadIntoReg d)
  | .storr _ d r _ => fun t => (addressFromReg r t).andThen (storeFromReg d)
  | .load _ d _ _ => fun t => (addressFromImm t).andThen (loadIntoReg d)
  | .store _ d _ _ => fun t => (addressFromImm t).andThen (storeFromReg d)
  | .clz _ _ _ _ => unimplementedRoutine s.config.opcodes.clz
  | .clof _ _ _ _ => unimplementedRoutine s.config.opcodes.clof
  | .clng _ _ _ _ => unimplementedRoutine s.config.opcodes.clng

/-- Every meaning is the Execute phase of its instruction's condition and routine. -/
theorem exec_eq (i : Instr) (s : State) : exec i s = executePhase i.cond (routineOf i s) s := by
  cases i <;> rfl

/-- No Execute phase is refused. -/
theorem executePhase_not_refused {c : Cond} {r : State → Run} {s : State} {e : Refusal} :
    executePhase c r s ≠ .refused e := by
  unfold executePhase Run.finish
  split
  · simp
  · simp
  · split <;> simp

/-- A step that answers a next state ran the pulse of its phase (42_control_unit.md R132). -/
theorem step_next {s t : State} (h : step s = .next t) :
    s.fault = none ∧
    ((s.cu = .fetch1 ∧ fetch1Pulse s = .next t) ∨ (s.cu = .fetch2 ∧ fetch2Pulse s = .next t) ∨
     (s.cu = .decode ∧ decodePulse s = .next t) ∨
     (s.cu = .execute ∧ ((∃ i, s.cur = some (.core i) ∧ exec i s = .next t) ∨
                         (∃ e, s.cur = some (.extra e) ∧ execExtra e s = .next t)))) := by
  unfold step at h
  split at h
  · cases h
  · rename_i hf
    refine ⟨hf, ?_⟩
    split at h
    · rename_i hc; exact .inl ⟨hc, h⟩
    · rename_i hc; exact .inr (.inl ⟨hc, h⟩)
    · rename_i hc; exact .inr (.inr (.inl ⟨hc, h⟩))
    · rename_i hc
      refine .inr (.inr (.inr ⟨hc, ?_⟩))
      unfold executePulse at h
      split at h
      · rename_i i hi; exact .inl ⟨i, hi, h⟩
      · rename_i e he; exact .inr ⟨e, he, h⟩
      · cases h

end Sys2Proof.Machine
end

