-- ==== Sys2Proof/Laws/Loader.lean ====
section
/-! SUPPORT. Sys2Proof/Laws/Loader.lean: everything placing Words can do, the two directions of a Word's bytes, and what
the assembler answers. -/

namespace Sys2Proof.Machine

open Sys2Proof

/-- Placing one Word keeps the canonical form. -/
theorem placeWord_wf {s : State} {a v : Word} (hm : s.mem.wf = true) : (s.placeWord a v).mem.wf = true := by
  unfold State.placeWord
  split
  · exact hm
  · exact Memory.write_wf v hm (BitVec.isLt _)

/-- The address of program Word `i + 1` after `a` is that of Word `i` after `a + 1`. -/
theorem add_one_ofNat (a : Word) (i : Nat) : a + 1 + BitVec.ofNat 32 i = a + BitVec.ofNat 32 (i + 1) := by
  rw [BitVec.add_assoc, BitVec.add_comm 1]
  congr 1
  simp [BitVec.ofNat_add]

/-- Everything placing a program can do: it keeps the canonical form, lists only cells listed before or backed, leaves
every word but the program's, and, up to 2^32 Words, leaves each program Word at its address (70_reset_and_hazards.md
R166). -/
theorem placeProgram_ok {ws : List Word} {rs : List Region} {m m' : Memory} {a : Word}
    (h : placeProgram rs m a ws = .ok m') :
    (m.wf = true → m'.wf = true) ∧
    (∀ c ∈ m', c ∈ m ∨ backed rs (BitVec.ofNat 32 c.1) = true) ∧
    (∀ b : Word, (∀ i < ws.length, b ≠ a + BitVec.ofNat 32 i) → m'.read b.toNat = m.read b.toNat) ∧
    (ws.length ≤ 2 ^ 32 → ∀ (i : Nat) (hi : i < ws.length),
      backed rs (a + BitVec.ofNat 32 i) = true ∧ m'.read (a + BitVec.ofNat 32 i).toNat = some ws[i]) := by
  induction ws generalizing m a with
  | nil => cases h; exact ⟨id, fun c hc => .inl hc, fun _ _ => rfl, fun _ i hi => by simp at hi⟩
  | cons w ws ih =>
    simp only [placeProgram] at h
    split at h
    · cases h
    · rename_i p hp
      rw [backingKey_eq hp] at h
      obtain ⟨i1, i2, i3, i4⟩ := ih h
      have ba : backed rs a = true := (backed_iff _ _).2 ⟨p, hp⟩
      refine ⟨fun hw => i1 (Memory.write_wf _ hw a.isLt), fun c hc => ?_, fun b hb => ?_, fun hl i hi => ?_⟩
      · rcases i2 c hc with hm | hm
        · rcases Memory.mem_write hm with rfl | hm
          · right; simpa using ba
          · exact .inl hm
        · exact .inr hm
      · rw [i3 b, Memory.read_write_other]
        · have := hb 0 (by simp)
          exact fun e => this (by simpa using BitVec.eq_of_toNat_eq e)
        · intro i hi
          rw [add_one_ofNat]
          exact hb (i + 1) (by simpa using hi)
      · simp only [List.length_cons] at hl hi
        cases i with
        | zero =>
          refine ⟨by simpa using ba, ?_⟩
          simp only [BitVec.add_zero, List.getElem_cons_zero]
          rw [i3 a, Memory.read_write_same]
          intro i hi
          rw [add_one_ofNat]
          intro e
          have := congrArg BitVec.toNat e
          simp at this
          omega
        | succ i =>
          rw [← add_one_ofNat]
          simpa using i4 (by omega) i (by omega)

/-- A Word's four bytes give the Word back (70_reset_and_hazards.md R164). -/
theorem wordOfBytes_bytes (w : Word) :
    wordOfBytes (w.extractLsb' 24 8) (w.extractLsb' 16 8) (w.extractLsb' 8 8) (w.extractLsb' 0 8) = w := by
  apply BitVec.eq_of_getLsbD_eq
  intro i hi
  interval_cases i <;> simp [wordOfBytes]

/-- The bytes of the Word four bytes make are those bytes. -/
theorem bytesOfWord_word (b0 b1 b2 b3 : Byte) : bytesOfWord (wordOfBytes b0 b1 b2 b3) = [b0, b1, b2, b3] := by
  simp only [bytesOfWord, List.cons.injEq, and_true]
  refine ⟨?_, ?_, ?_, ?_⟩ <;>
    (apply BitVec.eq_of_getLsbD_eq; intro i hi; interval_cases i <;> simp [wordOfBytes])

/-- Lines that assemble give the encodings of one Instruction each, two Words at a time (30_encoding.md R81). -/
theorem assembleLines_words {k : Config} {ls : List (List Char)} {n : Nat} {ws : List Word}
    (h : assembleLines k n ls = .words ws) :
    ∃ is : List Instr, ws = is.flatMap (fun i => [(encode k i).1, (encode k i).2]) ∧
      ∀ i ∈ is, ∃ l, expandLine k l = .ok i := by
  induction ls generalizing n ws with
  | nil => cases h; exact ⟨[], rfl, by simp⟩
  | cons l ls ih =>
    simp only [assembleLines] at h
    split at h
    · exact ih h
    · split at h
      · cases h
      · rename_i i hi
        split at h
        · rename_i ws' hw
          cases h
          obtain ⟨is, rfl, hs⟩ := ih hw
          exact ⟨i :: is, rfl, by rintro j (_ | ⟨_, hj⟩); exacts [⟨l, hi⟩, hs j hj]⟩
        · cases h

/-- The length of a program the assembler produces is a multiple of 2 (70_reset_and_hazards.md R166). -/
theorem assemble_even {k : Config} {source : List Char} {ws : List Word} (h : assemble k source = .words ws) :
    ws.length % 2 = 0 := by
  obtain ⟨is, rfl, -⟩ := assembleLines_words h
  induction is with
  | nil => rfl
  | cons i is ih => simp [List.flatMap_cons] at ih ⊢; omega

/-- A text that assembles gives the file with `CODEC_VERSION` in its header; any other gives its EncodingError. -/
theorem assembleFile_words {k : Config} {version : Word} {f : FileLayout} {source : List Char} {ws : List Word}
    (h : assemble k source = .words ws) :
    assembleFile k version f source = .file (writeContainer (assemblerHeader version f) ws) := by
  simp only [assembleFile, h]

theorem assembleFile_encodingError {k : Config} {version : Word} {f : FileLayout} {source : List Char} {line : Nat}
    {p : AsmProblem} (h : assemble k source = .encodingError line p) :
    assembleFile k version f source = .encodingError line p := by
  simp only [assembleFile, h]

end Sys2Proof.Machine
end

