-- ==== Sys2Proof/Laws/PerInstr.lean ====
section
/-! SUPPORT. Sys2Proof/Laws/PerInstr.lean: one lemma per constructor of Instr for each family of LAWS.json. -/

namespace Sys2Proof.Laws.EncodedHead

open Sys2Proof

/-- The low Word an instruction encodes to carries the opcode's value in bits 31–26 and the condition's in bits 25–22,
whatever its format (30_encoding.md R56, R72). -/
def Statement (i : Instr) : Prop :=
  ∀ k : Config, opField (encode k i).1 = k.opcodes.code i.opcode ∧ condField (encode k i).1 = k.conds.code i.cond

theorem nop (c : Cond) (t : Word) : Statement (.nop c t) :=
  fun _ => ⟨opField_encodeJ .., condField_encodeJ ..⟩
theorem jmp (c : Cond) (t : Word) : Statement (.jmp c t) :=
  fun _ => ⟨opField_encodeJ .., condField_encodeJ ..⟩
theorem b (c : Cond) (t : Word) : Statement (.b c t) :=
  fun _ => ⟨opField_encodeJ .., condField_encodeJ ..⟩
theorem aopr (c : Cond) (d s : RegCode) (a : Microcode) : Statement (.aopr c d s a) :=
  fun _ => ⟨opField_encodeR .., condField_encodeR ..⟩
theorem aopi (c : Cond) (d : RegCode) (a : Microcode) (imm : Word) : Statement (.aopi c d a imm) :=
  fun _ => ⟨opField_encodeI .., condField_encodeI ..⟩
theorem loadr (c : Cond) (d s : RegCode) (a : Microcode) : Statement (.loadr c d s a) :=
  fun _ => ⟨opField_encodeR .., condField_encodeR ..⟩
theorem storr (c : Cond) (d s : RegCode) (a : Microcode) : Statement (.storr c d s a) :=
  fun _ => ⟨opField_encodeR .., condField_encodeR ..⟩
theorem load (c : Cond) (d : RegCode) (a : Microcode) (imm : Word) : Statement (.load c d a imm) :=
  fun _ => ⟨opField_encodeI .., condField_encodeI ..⟩
theorem store (c : Cond) (d : RegCode) (a : Microcode) (imm : Word) : Statement (.store c d a imm) :=
  fun _ => ⟨opField_encodeI .., condField_encodeI ..⟩
theorem clz (c : Cond) (d s : RegCode) (a : Microcode) : Statement (.clz c d s a) :=
  fun _ => ⟨opField_encodeR .., condField_encodeR ..⟩
theorem clof (c : Cond) (d s : RegCode) (a : Microcode) : Statement (.clof c d s a) :=
  fun _ => ⟨opField_encodeR .., condField_encodeR ..⟩
theorem clng (c : Cond) (d s : RegCode) (a : Microcode) : Statement (.clng c d s a) :=
  fun _ => ⟨opField_encodeR .., condField_encodeR ..⟩

end Sys2Proof.Laws.EncodedHead
end

