-- ==== Sys2Proof/Laws/Routine.lean ====
section
/-! SUPPORT. Sys2Proof/Laws/Routine.lean: everything the routine of an instruction can do, said once: what it leaves when
it runs to its end, and what it keeps when it faults. -/

namespace Sys2Proof.Machine

open Sys2Proof

/-! ## Everything the routine of an instruction can do -/

/-- What a routine that runs to its end leaves, `fe` being false before it (43 to 46). -/
def RoutineEffect (i : Instr) (s u : State) : Prop :=
  match i with
  | .nop _ _ => u = s
  | .jmp _ _ => u = { s with pc := s.irb, aluB := s.irb, selB := .irb, aluOp := transferB, selW := .void }
  | .b _ _ => u = { s with pc := s.irb, aluB := s.irb, selB := .irb, aluOp := transferB, selW := .void }
  | .aopr _ d r a => s.config.isGpr d = true ∧ s.config.isGpr r = true ∧ u = { s with
      gpr := s.gpr.set d.toNat (compute (s.reg d) (s.reg r) a).1, flags := (compute (s.reg d) (s.reg r) a).2
      fe := true, aluA := s.reg d, selA := .gp d, aluB := s.reg r, selB := .gp r, aluOp := a, selW := .void }
  | .aopi _ d a _ => s.config.isGpr d = true ∧ u = { s with
      gpr := s.gpr.set d.toNat (compute (s.reg d) s.irb a).1, flags := (compute (s.reg d) s.irb a).2
      fe := true, aluA := s.reg d, selA := .gp d, aluB := s.irb, selB := .irb, aluOp := a, selW := .void }
  | .loadr _ d r _ => s.config.isGpr d = true ∧ s.config.isGpr r = true ∧ ∃ w, memRead s (s.reg r) = .ok w ∧ u = { s with
      gpr := s.gpr.set d.toNat w, mar := s.reg r, mdr := w
      aluA := s.reg r, selA := .gp r, aluB := w, selB := .mdr, aluOp := transferB, selW := .void }
  | .load _ d _ _ => s.config.isGpr d = true ∧ ∃ w, memRead s s.irb = .ok w ∧ u = { s with
      gpr := s.gpr.set d.toNat w, mar := s.irb, mdr := w, aluB := w, selB := .mdr, aluOp := transferB, selW := .void }
  | .storr _ d r _ => s.config.isGpr d = true ∧ s.config.isGpr r = true ∧
      backed s.config.regions (s.reg r) = true ∧ u = { s with
        mem := s.mem.write (s.reg r).toNat (s.reg d)
        consoleOut := s.consoleOut ++ storeEvents s.config.regions (s.reg r) (s.reg d)
        mar := s.reg r, mdr := s.reg d, aluA := s.reg d, selA := .gp d, aluOp := transferA, selW := .void }
  | .store _ d _ _ => s.config.isGpr d = true ∧ backed s.config.regions s.irb = true ∧ u = { s with
        mem := s.mem.write s.irb.toNat (s.reg d)
        consoleOut := s.consoleOut ++ storeEvents s.config.regions s.irb (s.reg d)
        mar := s.irb, mdr := s.reg d
        aluA := s.reg d, selA := .gp d, aluB := s.irb, selB := .irb, aluOp := transferA, selW := .void }
  | .clz _ _ _ _ => False
  | .clof _ _ _ _ => False
  | .clng _ _ _ _ => False

/-- A load micro-operation that completed read a Word into a named register. -/
theorem loadIntoReg_ok {s u : State} {d : RegCode} (hf : s.fe = false) (h : loadIntoReg d s = .ok u) :
    s.config.isGpr d = true ∧ ∃ w, memRead s s.mar = .ok w ∧ u = { s with
      gpr := s.gpr.set d.toNat w, mdr := w, aluB := w, selB := .mdr, aluOp := transferB, selW := .void } := by
  have hd : s.config.isGpr d = true := by
    cases hd : s.config.isGpr d with
    | true => rfl
    | false =>
      simp [loadIntoReg, regOperand, uop, resolveUop, feedNamed, hd] at h
  refine ⟨hd, ?_⟩
  have hl : (BusAddr.gp d).writebackListed s.config = true := by simp [BusAddr.writebackListed, hd, BusAddr.access]
  cases hm : memRead s s.mar with
  | ok w =>
    rw [loadIntoReg, regOperand, uop_mdr_to hf hl (by simp) hm] at h
    cases h
    exact ⟨w, rfl, rfl⟩
  | error k =>
    rw [loadIntoReg, regOperand, uop_mdr_to_fault hf hl (by simp) hm] at h
    cases h

/-- A store micro-operation that completed wrote a named register to a backed address. -/
theorem storeFromReg_ok {s u : State} {d : RegCode} (hf : s.fe = false) (h : storeFromReg d s = .ok u) :
    s.config.isGpr d = true ∧ backed s.config.regions s.mar = true ∧ u = { s with
      aluA := s.reg d, selA := .gp d, aluOp := transferA, mdr := s.reg d, selW := .void
      mem := s.mem.write s.mar.toNat (s.reg d)
      consoleOut := s.consoleOut ++ storeEvents s.config.regions s.mar (s.reg d) } := by
  cases hd : s.config.isGpr d with
  | false => rw [storeFromReg, regOperand, uop_bad_gp hd] at h; cases h
  | true =>
    cases hb : backed s.config.regions s.mar with
    | false => rw [storeFromReg, regOperand, uop_gp_to_mdr_fault hf hd hb] at h; cases h
    | true => rw [storeFromReg, regOperand, uop_gp_to_mdr hf hd hb] at h; cases h; exact ⟨rfl, rfl, rfl⟩

/-- A register-indirect address that was set came from a named register. -/
theorem addressFromReg_ok {s u : State} {r : RegCode} (hf : s.fe = false) (h : addressFromReg r s = .ok u) :
    s.config.isGpr r = true ∧
    u = { s with aluA := s.reg r, selA := .gp r, aluOp := transferA, mar := s.reg r, selW := .void } := by
  cases hr : s.config.isGpr r with
  | false => rw [addressFromReg, regOperand, uop_bad_gp hr] at h; cases h
  | true => rw [addressFromReg, regOperand, uop_gp_to_mar hf hr] at h; cases h; exact ⟨rfl, rfl⟩

/-- An absolute address is always set. -/
theorem addressFromImm_eq {s : State} (hf : s.fe = false) :
    addressFromImm s
      = .ok { s with aluB := s.irb, selB := .irb, aluOp := transferB, mar := s.irb, selW := .void } := by
  rw [addressFromImm, highWordOperand, uop_irb_to_mar hf]

/-- Every routine that runs to its end leaves its effect. -/
theorem routine_ok {i : Instr} {s u : State} (hf : s.fe = false) (h : routineOf i s s = .ok u) :
    RoutineEffect i s u := by
  cases i with
  | nop c t => cases h; rfl
  | jmp c t =>
    simp only [routineOf, jumpRoutine, highWordOperand, uop_irb_to_pc hf] at h
    cases h; rfl
  | b c t =>
    simp only [routineOf, jumpRoutine, highWordOperand, uop_irb_to_pc hf] at h
    cases h; rfl
  | aopr c d r a =>
    simp only [routineOf, aluRoutine, regOperand] at h
    cases hd : s.config.isGpr d with
    | false => rw [uop_bad_gp (by exact hd)] at h; cases h
    | true =>
      cases hr : s.config.isGpr r with
      | false =>
        have : resolveUop s.config (some (.gp d)) (some (.gp r)) (.gp d) = some .illegalAddress := by
          simp [resolveUop, feedNamed, hr]
        simp only [uop, this] at h
        cases h
      | true =>
        rw [uop_alu_reg (s := { s with fe := true }) rfl hd hr] at h
        cases h
        exact ⟨hd, hr, rfl⟩
  | aopi c d a imm =>
    simp only [routineOf, aluRoutine, regOperand, highWordOperand] at h
    cases hd : s.config.isGpr d with
    | false => rw [uop_bad_gp (by exact hd)] at h; cases h
    | true =>
      rw [uop_alu_imm (s := { s with fe := true }) rfl hd] at h
      cases h
      exact ⟨hd, rfl⟩
  | loadr c d r a =>
    obtain ⟨v, hv, h⟩ := Run.andThen_eq_ok h
    obtain ⟨hr, rfl⟩ := addressFromReg_ok hf hv
    obtain ⟨hd, w, hw, rfl⟩ := loadIntoReg_ok (by exact hf) h
    exact ⟨hd, hr, w, hw, rfl⟩
  | storr c d r a =>
    obtain ⟨v, hv, h⟩ := Run.andThen_eq_ok h
    obtain ⟨hr, rfl⟩ := addressFromReg_ok hf hv
    obtain ⟨hd, hb, rfl⟩ := storeFromReg_ok (by exact hf) h
    exact ⟨hd, hr, hb, rfl⟩
  | load c d a imm =>
    simp only [routineOf] at h
    obtain ⟨v, hv, h⟩ := Run.andThen_eq_ok h
    rw [addressFromImm_eq hf] at hv
    cases hv
    obtain ⟨hd, w, hw, rfl⟩ := loadIntoReg_ok (by exact hf) h
    exact ⟨hd, w, hw, rfl⟩
  | store c d a imm =>
    simp only [routineOf] at h
    obtain ⟨v, hv, h⟩ := Run.andThen_eq_ok h
    rw [addressFromImm_eq hf] at hv
    cases hv
    obtain ⟨hd, hb, rfl⟩ := storeFromReg_ok (by exact hf) h
    exact ⟨hd, hb, rfl⟩
  | clz c d r a => cases h
  | clof c d r a => cases h
  | clng c d r a => cases h

/-! ## What a routine that faults leaves -/

/-- A fault keeps `cu`, the memory, the console events, the parameters and the fault record of the state it began in. -/
def Untouched (s u : State) : Prop :=
  u.cu = s.cu ∧ u.mem = s.mem ∧ u.consoleOut = s.consoleOut ∧ u.config = s.config ∧ u.fault = s.fault

theorem uop_raised_untouched {srcA srcB : Option BusAddr} {op : Microcode} {dst : BusAddr} {s u : State} {k : FaultKind}
    (h : uop srcA srcB op dst s = .raised k u) : Untouched s u := by
  rcases uop_cases srcA srcB op dst s with ⟨e, -, hu⟩ | ⟨-, -, hu⟩ | ⟨k', -, -, hu⟩ <;> rw [hu] at h <;> cases h
  · exact ⟨rfl, rfl, rfl, rfl, rfl⟩
  · obtain ⟨h1, -, h3, -, h5, -⟩ := commitUop_frame srcA srcB op dst s
    exact ⟨by simp [h3], by simp, by simp, by simp [h1], by simp [h5]⟩

/-- Every routine that faults, whatever the fields of its instruction. -/
theorem routine_raised {i : Instr} {s u : State} {k : FaultKind} (hf : s.fe = false)
    (h : routineOf i s s = .raised k u) : Untouched s u := by
  cases i with
  | nop c t => cases h
  | jmp c t => exact uop_raised_untouched (show jumpRoutine s = .raised k u from h)
  | b c t => exact uop_raised_untouched (show jumpRoutine s = .raised k u from h)
  | aopr c d r a => exact uop_raised_untouched (s := { s with fe := true }) h
  | aopi c d a imm => exact uop_raised_untouched (s := { s with fe := true }) h
  | loadr c d r a =>
    simp only [routineOf] at h
    rcases Run.andThen_eq_raised h with h | ⟨v, hv, h⟩
    · exact uop_raised_untouched h
    · obtain ⟨-, rfl⟩ := addressFromReg_ok hf hv
      have := uop_raised_untouched (u := u) h
      exact this
  | storr c d r a =>
    simp only [routineOf] at h
    rcases Run.andThen_eq_raised h with h | ⟨v, hv, h⟩
    · exact uop_raised_untouched h
    · obtain ⟨-, rfl⟩ := addressFromReg_ok hf hv
      have := uop_raised_untouched (u := u) h
      exact this
  | load c d a imm =>
    simp only [routineOf] at h
    rcases Run.andThen_eq_raised h with h | ⟨v, hv, h⟩
    · exact uop_raised_untouched h
    · rw [addressFromImm_eq hf] at hv
      cases hv
      have := uop_raised_untouched (u := u) h
      exact this
  | store c d a imm =>
    simp only [routineOf] at h
    rcases Run.andThen_eq_raised h with h | ⟨v, hv, h⟩
    · exact uop_raised_untouched h
    · rw [addressFromImm_eq hf] at hv
      cases hv
      have := uop_raised_untouched (u := u) h
      exact this
  | clz c d r a => cases h; exact ⟨rfl, rfl, rfl, rfl, rfl⟩
  | clof c d r a => cases h; exact ⟨rfl, rfl, rfl, rfl, rfl⟩
  | clng c d r a => cases h; exact ⟨rfl, rfl, rfl, rfl, rfl⟩

/-- A micro-operation whose checks pass raises only an AddressFault or UnwrittenRead (41_fabric.md R116, R120). -/
theorem uop_raised_kind {srcA srcB : Option BusAddr} {op : Microcode} {dst : BusAddr} {s u : State} {k : FaultKind}
    (hr : resolveUop s.config srcA srcB dst = none) (h : uop srcA srcB op dst s = .raised k u) :
    ∀ e, k ≠ .fabricError e := by
  have hread : ∀ (r : BusAddr) (s : State) k, (busRead r s).2 = some k → ∀ e, k ≠ .fabricError e := by
    intro r s k h e
    unfold busRead at h
    split at h
    · rcases memRead_cases s s.mar with ⟨hm, -⟩ | ⟨hm, -⟩ | ⟨w, hm, -⟩ <;> rw [hm] at h <;> cases h <;> simp
    · cases h
  have hfeed : ∀ (src : Option BusAddr) (s : State) k, (feedA src s).2 = some k ∨ (feedB src s).2 = some k →
      ∀ e, k ≠ .fabricError e := by
    intro src s k h
    cases src with
    | none => rcases h with h | h <;> cases h
    | some r => rcases h with h | h <;> exact hread r s k h
  rcases uop_cases srcA srcB op dst s with ⟨e, he, -⟩ | ⟨-, -, hu⟩ | ⟨k', -, hc, hu⟩
  · rw [hr] at he; cases he
  · rw [hu] at h; cases h
  · rw [hu] at h; cases h
    unfold commitUop at hc
    simp only at hc
    rcases Option.or_eq_some_iff.1 hc with hl | ⟨-, hw⟩
    · unfold latchUop at hl
      simp only at hl
      rcases Option.or_eq_some_iff.1 hl with ha | ⟨-, hb⟩
      · exact hfeed _ _ _ (.inl ha)
      · exact hfeed _ _ _ (.inr hb)
    · rcases writebackUop_cases dst (latchUop srcA srcB op dst s).1 with ⟨-, hw'⟩ | ⟨-, -, hw'⟩ | ⟨-, -, hw'⟩ <;>
        rw [hw'] at hw <;> cases hw
      simp

end Sys2Proof.Machine
end

