-- ==== Sys2Proof/Laws/Step.lean ====
section
/-! SUPPORT. Sys2Proof/Laws/Step.lean: everything a step can do, said once; the whole-machine claims cite it. -/

namespace Sys2Proof.Machine

open Sys2Proof

/-- Everything a step that answers a next state can do, from a state that meets the invariant: one of the three phases
before Execute, an instruction whose condition is false, or a routine that ran to its end and its `endExecute`. -/
theorem step_inv_cases {s t : State} (hi : MachineInv s) (h : step s = .next t) :
    (s.cu = .fetch1 ∧ ∃ w, memRead s s.pc = .ok w ∧ t = { s with
        mar := s.pc, mdr := w, ira := w, cu := .fetch2
        aluA := s.pc, selA := .pc, aluB := w, selB := .mdr, aluOp := transferB, selW := .void }) ∨
    (s.cu = .fetch2 ∧ ∃ w, memRead s (s.pc + 1) = .ok w ∧ t = { s with
        mar := s.pc + 1, mdr := w, irb := w, cu := .decode
        aluA := s.pc, selA := .pc, aluB := w, selB := .mdr, aluOp := transferB, selW := .void }) ∨
    (s.cu = .decode ∧ ∃ d, decode s.config s.ira s.irb = .ok d ∧ t = { s with
        pc := s.pc + 2, cur := some d, cu := .execute
        aluA := s.pc + 1, selA := .pc, aluOp := aIncrement, selW := .void }) ∨
    (s.cu = .execute ∧ ∃ d, s.cur = some d ∧ CondFalse d.cond s ∧ t = { s with cu := .fetch1 }) ∨
    (s.cu = .execute ∧ ∃ i u, s.cur = some (.core i) ∧ CondTrue i.cond s ∧ RoutineEffect i s u ∧ t = u.endExecute) := by
  obtain ⟨hn, ⟨hc, h⟩ | ⟨hc, h⟩ | ⟨hc, h⟩ | ⟨hc, ⟨i, hcur, h⟩ | ⟨e, hcur, h⟩⟩⟩ := step_next h
  · left
    refine ⟨hc, ?_⟩
    simp only [fetch1Pulse, uop_pc_to_mar hi.flagEnable, Run.andThen_ok] at h
    obtain ⟨u, hu, rfl⟩ := Run.finish_eq_next h
    cases hm : memRead s s.pc with
    | error k => rw [uop_mdr_to_fault (k := k) (by exact hi.flagEnable) rfl (by simp) hm] at hu; cases hu
    | ok w => rw [uop_mdr_to (w := w) (by exact hi.flagEnable) rfl (by simp) hm] at hu; cases hu; exact ⟨w, rfl, rfl⟩
  · right; left
    refine ⟨hc, ?_⟩
    simp only [fetch2Pulse, uop_pcInc_to_mar hi.flagEnable, Run.andThen_ok] at h
    obtain ⟨u, hu, rfl⟩ := Run.finish_eq_next h
    cases hm : memRead s (s.pc+1) with
    | error k => rw [uop_mdr_to_fault (k := k) (by exact hi.flagEnable) rfl (by simp) hm] at hu; cases hu
    | ok w => rw [uop_mdr_to (w := w) (by exact hi.flagEnable) rfl (by simp) hm] at hu; cases hu; exact ⟨w, rfl, rfl⟩
  · right; right; left
    refine ⟨hc, ?_⟩
    simp only [decodePulse, uop_pcInc_to_pc hi.flagEnable, Run.andThen_ok] at h
    rw [uop_pcInc_to_pc (by exact hi.flagEnable)] at h
    obtain ⟨u, hu, rfl⟩ := Run.finish_eq_next h
    simp only [Run.andThen_ok, decodeCurrent] at hu
    cases hd : decode s.config s.ira s.irb with
    | error k => rw [hd] at hu; cases hu
    | ok d =>
      rw [hd] at hu; cases hu
      exact ⟨d, rfl, by rw [show s.pc + 2 = s.pc + 1 + 1 by bv_omega]⟩
  · right; right; right
    rw [exec_eq] at h
    rcases executePhase_next h with ⟨hf, rfl⟩ | ⟨ht, u, hu, rfl⟩
    · exact .inl ⟨hc, _, hcur, hf, rfl⟩
    · exact .inr ⟨hc, i, u, hcur, ht, routine_ok hi.flagEnable hu, rfl⟩
  · right; right; right; left
    rcases executePhase_next h with ⟨hf, rfl⟩ | ⟨ht, u, hu, rfl⟩
    · exact ⟨hc, _, hcur, hf, rfl⟩
    · cases hu

end Sys2Proof.Machine
end

