-- ==== Sys2Proof/Tests/Slice0.lean ====
section
/-! SUPPORT. Sys2Proof/Tests/Slice0.lean: the WellFormed smoke test, decoding of written-out words, one-step tests whose
expected results are the rows of 95_test_vectors.md, and a named witness for the hypotheses of each obligation.
"L2.6 row 2" names a row of that file. Cells the rows call unwritten hold zero here (log 1). -/

namespace Sys2Proof.Tests

open Sys2Proof Sys2Proof.Machine

set_option maxRecDepth 8000

/-! ## Helpers -/

/-- Registers with some values, the others zero. -/
def gprs (vals : List (RegCode × Word)) : Vector Word 32 :=
  vals.foldl (fun g p => g.set p.1.toNat p.2) (Vector.replicate 32 0)

/-- Flags from the digits OZNC. -/
def flagsOf (oznc : Nat) : Flags := ⟨oznc.testBit 3, oznc.testBit 2, oznc.testBit 1, oznc.testBit 0⟩

/-- About to fetch at 0x40, as in L2.6 to L2.9. -/
def at40 (vals : List (RegCode × Word)) (oznc : Nat) (m : Memory) : State :=
  { State.reset with pc := 0x40, gpr := gprs vals, flags := flagsOf oznc, mem := m }

/-- In Execute with the pair fetched and decoded from 0x40. -/
def fetched (vals : List (RegCode × Word)) (oznc : Nat) (m : Memory) (w0 w1 : Nat) : State :=
  (at40 vals oznc m).withFetchWord 64 (w1 * 2 ^ 32 + w0)

/-- The state a step leads to, or the faulted state. -/
def after (o : Outcome) : State :=
  match o with
  | .next t => t
  | .fault f => f.stopped
  | .refused _ => State.reset

/-- Whether a step answered a next state. -/
def goesOn (o : Outcome) : Bool :=
  match o with
  | .next _ => true
  | .fault _ => false
  | .refused _ => false

/-- The kind of fault of a step that faulted. -/
def faultOf (o : Outcome) : Option FaultKind :=
  match o with
  | .next _ => none
  | .fault f => f.kind
  | .refused _ => none

theorem next_after {o : Outcome} (h : goesOn o = true) : o = .next (after o) := by
  cases o with
  | next t => rfl
  | fault f => cases h
  | refused r => cases h

/-- What the two Words decode to under the default parameters. -/
def dec (w0 w1 : Word) : DecodeResult := decode Config.default w0 w1

/-! ## WellFormed: an ill-formed term for each check, refused (30_encoding.md R66, R71) -/

theorem test_wf_aopr_dest : Instr.wf Config.default (.aopr .always 0 1 0) = false := by decide
theorem test_wf_aopr_src : Instr.wf Config.default (.aopr .always 1 0 0) = false := by decide
theorem test_wf_aopi_dest : Instr.wf Config.default (.aopi .always 0 0 5) = false := by decide
theorem test_wf_loadr_dest : Instr.wf Config.default (.loadr .always 0 1 0) = false := by decide
theorem test_wf_loadr_src : Instr.wf Config.default (.loadr .always 1 0 0) = false := by decide
theorem test_wf_storr_dest : Instr.wf Config.default (.storr .always 0 1 0) = false := by decide
theorem test_wf_storr_src : Instr.wf Config.default (.storr .always 1 0 0) = false := by decide
theorem test_wf_load_dest : Instr.wf Config.default (.load .always 0 0 0x10) = false := by decide
theorem test_wf_store_dest : Instr.wf Config.default (.store .always 0 0 0x10) = false := by decide
theorem test_wf_clz_unchecked : Instr.wf Config.default (.clz .always 0 31 0) = true := by decide

/-- An extra opcode that is not listed, or is listed with another type (30_encoding.md R62). -/
theorem test_wf_extra_unlisted : ExtraInstr.wf Config.default (.jump 0x20 .always 0) = false := by decide
theorem test_wf_extra_other_type :
    ExtraInstr.wf { Config.default with extra := [(0x20, .register)] } (.jump 0x20 .always 0) = false := by decide

/-- Four registers: GP5 is ill-formed, GP4 is not (30_encoding.md R66). -/
theorem test_wf_four_registers :
    Instr.wf { Config.default with regCodes := regCodesUpTo 4 } (.load .always 5 0 0) = false ∧
    Instr.wf { Config.default with regCodes := regCodesUpTo 4 } (.load .always 4 0 0) = true := by decide

/-- Each defect of the parameters is refused (10_state.md R18, 20_memory.md R36, R37, 30_encoding.md R61, R62, R64). -/
theorem test_wf_config :
    Config.default.wf = true ∧
    Config.wf { Config.default with opcodes := { OpcodeCodes.default with clz := 0x00 } } = false ∧
    Config.wf { Config.default with conds := { CondCodes.default with ne := 0x0 } } = false ∧
    Config.wf { Config.default with regCodes := [] } = false ∧
    Config.wf { Config.default with regCodes := [1, 1] } = false ∧
    Config.wf { Config.default with regCodes := (0 : RegCode) :: regCodesUpTo 31 } = false ∧
    Config.wf { Config.default with extra := [(0x0B, .register)] } = false ∧
    Config.wf { Config.default with extra := [(0x20, .register), (0x20, .jump)] } = false ∧
    Config.wf { Config.default with regions := [Region.ofBounds 0x10F 0x100 .ram] } = false ∧
    Config.wf { Config.default with regions := [Region.ofBounds 0 0xFF .ram, Region.ofBounds 0x80 0x10F .console] } = false :=
  by decide

/-! ## Decode: words written out from the encodings (L2.3) and the errors (L2.4) -/

theorem test_decode_nop : dec 0x00000000 0x00000000 = .ok (.core (.nop .always 0)) := by decide
theorem test_decode_jmp : dec 0x04000000 0x00001234 = .ok (.core (.jmp .always 0x1234)) := by decide
theorem test_decode_b : dec 0x0A000000 0x00000010 = .ok (.core (.b .ne 0x10)) := by decide
theorem test_decode_aopr :
    dec 0x0C483080 0 = .ok (.core (.aopr .of 4 3 0x02)) ∧ dec 0x0D0644C0 0 = .ok (.core (.aopr .nz 3 4 0x13)) ∧
    dec 0x0C022FC0 0 = .ok (.core (.aopr .always 1 2 0x3F)) := by decide
theorem test_decode_aopi :
    dec 0x1004A800 0xF0 = .ok (.core (.aopi .always 2 0x15 0xF0)) ∧
    dec 0x11887000 0 = .ok (.core (.aopi .nn 4 0x0E 0)) ∧ dec 0x10035000 7 = .ok (.core (.aopi .always 1 0x2A 7)) := by
  decide
theorem test_decode_loadr : dec 0x14022000 0 = .ok (.core (.loadr .always 1 2 0)) := by decide
theorem test_decode_storr : dec 0x19481000 0 = .ok (.core (.storr .ng 4 1 0)) := by decide
theorem test_decode_load : dec 0x1C060000 0x10 = .ok (.core (.load .always 3 0 0x10)) := by decide
theorem test_decode_store : dec 0x20C20000 0xFF = .ok (.core (.store .zr 1 0 0xFF)) := by decide
theorem test_decode_clz : dec 0x243FF000 0 = .ok (.core (.clz .always 31 31 0)) := by decide
theorem test_decode_clof : dec 0x28000000 0 = .ok (.core (.clof .always 0 0 0)) := by decide
theorem test_decode_clng : dec 0x2C800000 0 = .ok (.core (.clng .no 0 0 0)) := by decide

/-- An `EXTRA_UNIMPLEMENTED` opcode decodes with its type, its register fields unchecked (30_encoding.md R62). -/
theorem test_decode_extra :
    decode { Config.default with extra := [(0x30, .immediate)] } 0xC0BFF800 0x7
      = .ok (.extra (.immediate 0x30 .no 0x1F 0x3F 7)) := by decide

/-- Every rejection of L2.4, with the order of the checks. -/
theorem test_decode_errors :
    dec 0x30000000 0 = .error .unknownOpcode ∧ dec 0xFC000000 0 = .error .unknownOpcode ∧
    dec 0x02400000 0 = .error .unknownCondition ∧ dec 0x03C00000 0 = .error .unknownCondition ∧
    dec 0x0C001000 0 = .error .unknownRegister ∧ dec 0x0C020000 0 = .error .unknownRegister ∧
    dec 0x0C022081 0 = .error .reservedBitsSet ∧ dec 0x0C022080 1 = .error .reservedBitsSet ∧
    dec 0x10020001 5 = .error .reservedBitsSet ∧ dec 0x10020400 5 = .error .reservedBitsSet ∧
    dec 0x04000001 0 = .error .reservedBitsSet ∧ dec 0x04200000 0 = .error .reservedBitsSet ∧
    dec 0x30000001 0 = .error .unknownOpcode ∧ dec 0x02420000 0 = .error .unknownCondition ∧
    dec 0x1C000000 0x10 = .error .unknownRegister ∧ dec 0x14020000 0 = .error .unknownRegister ∧
    dec 0x24000001 0 = .error .reservedBitsSet := by decide

/-- EQ decodes, and a J-type target is never checked (L2.4). -/
theorem test_decode_unchecked :
    dec 0x09C00000 0x20 = .ok (.core (.b .eq 0x20)) ∧ dec 0x00000000 0xFFFFFFFF = .ok (.core (.nop .always 0xFFFFFFFF)) := by
  decide

/-- GP5 exists only above four registers (L2.4). -/
theorem test_decode_register_count :
    decode { Config.default with regCodes := regCodesUpTo 4 } 0x0C0A1000 0 = .error .unknownRegister := by decide

/-- The encoder writes the same words (L2.3). -/
theorem test_encode :
    encode Config.default (.aopr .of 4 3 0x02) = (0x0C483080, 0) ∧
    encode Config.default (.aopi .always 2 0x15 0xF0) = (0x1004A800, 0xF0) ∧
    encode Config.default (.jmp .always 0x1234) = (0x04000000, 0x1234) := by decide

/-! ## The ALU -/

/-- `out` and OZNC of one microcode over the pairs of a table. -/
def aluRow (op : Microcode) (ps : List (Word × Word)) (expected : List (Word × Nat)) : Bool :=
  decide (ps.map (fun p => compute p.1 p.2 op) = expected.map (fun e => (e.1, flagsOf e.2)))

/-- The pairs v1 to v9 of L2.1. -/
def pairs : List (Word × Word) :=
  [(0, 0), (0, 0xFFFFFFFF), (0xFFFFFFFF, 0), (0xFFFFFFFF, 0xFFFFFFFF), (0x80000000, 0x80000000), (0x80000000, 1),
   (5, 3), (3, 5), (0x7FFFFFFF, 1)]

/-- L2.1 (40_alu.md R94 to R108): TransferA, TransferB, AdditionSigned, AB_SubtractionSigned, BA_SubtractionSigned. -/
theorem test_alu_transfer_add_subtract : (
  aluRow 0x0C pairs [(0x0, 0b0100), (0x0, 0b0100), (0xFFFFFFFF, 0b0010), (0xFFFFFFFF, 0b0010), (0x80000000, 0b0010), (0x80000000, 0b0010), (0x5, 0b0000), (0x3, 0b0000), (0x7FFFFFFF, 0b0000)] &&
  aluRow 0x30 pairs [(0x0, 0b0100), (0xFFFFFFFF, 0b0010), (0x0, 0b0100), (0xFFFFFFFF, 0b0010), (0x80000000, 0b0010), (0x1, 0b0000), (0x3, 0b0000), (0x5, 0b0000), (0x1, 0b0000)] &&
  aluRow 0x02 pairs [(0x0, 0b0100), (0xFFFFFFFF, 0b0010), (0xFFFFFFFF, 0b0010), (0xFFFFFFFE, 0b1011), (0x0, 0b1101), (0x80000001, 0b0010), (0x8, 0b0000), (0x8, 0b0000), (0x80000000, 0b0010)] &&
  aluRow 0x13 pairs [(0x0, 0b0100), (0x1, 0b1001), (0xFFFFFFFF, 0b0010), (0x0, 0b0100), (0x0, 0b0100), (0x7FFFFFFF, 0b0000), (0x2, 0b0000), (0xFFFFFFFE, 0b1011), (0x7FFFFFFE, 0b0000)] &&
  aluRow 0x07 pairs [(0x0, 0b0100), (0xFFFFFFFF, 0b0010), (0x1, 0b1001), (0x0, 0b0100), (0x0, 0b0100), (0x80000001, 0b1011), (0xFFFFFFFE, 0b1011), (0x2, 0b0000), (0x80000002, 0b1011)]) = true := by decide

/-- L2.1 (40_alu.md R94 to R108): A_Negative, B_Negative, A_Increment, B_Increment, A_Decrement. -/
theorem test_alu_negate_increment : (
  aluRow 0x0F pairs [(0x0, 0b0100), (0x0, 0b0100), (0x1, 0b1001), (0x1, 0b1001), (0x80000000, 0b1011), (0x80000000, 0b1011), (0xFFFFFFFB, 0b1011), (0xFFFFFFFD, 0b1011), (0x80000001, 0b1011)] &&
  aluRow 0x33 pairs [(0x0, 0b0100), (0x1, 0b1001), (0x0, 0b0100), (0x1, 0b1001), (0x80000000, 0b1011), (0xFFFFFFFF, 0b1011), (0xFFFFFFFD, 0b1011), (0xFFFFFFFB, 0b1011), (0xFFFFFFFF, 0b1011)] &&
  aluRow 0x1F pairs [(0x1, 0b1001), (0x1, 0b1001), (0x0, 0b0100), (0x0, 0b0100), (0x80000001, 0b1011), (0x80000001, 0b1011), (0x6, 0b1001), (0x4, 0b1001), (0x80000000, 0b1011)] &&
  aluRow 0x37 pairs [(0x1, 0b1001), (0x0, 0b0100), (0x1, 0b1001), (0x0, 0b0100), (0x80000001, 0b1011), (0x2, 0b1001), (0x4, 0b1001), (0x6, 0b1001), (0x2, 0b1001)] &&
  aluRow 0x0E pairs [(0xFFFFFFFF, 0b0010), (0xFFFFFFFF, 0b0010), (0xFFFFFFFE, 0b1011), (0xFFFFFFFE, 0b1011), (0x7FFFFFFF, 0b1001), (0x7FFFFFFF, 0b1001), (0x4, 0b1001), (0x2, 0b1001), (0x7FFFFFFE, 0b1001)]) = true := by decide

/-- L2.1 (40_alu.md R94 to R108): B_Decrement, LogicalAND, LogicalOR, A_LogicalNOT, B_LogicalNOT. -/
theorem test_alu_decrement_logic : (
  aluRow 0x32 pairs [(0xFFFFFFFF, 0b0010), (0xFFFFFFFE, 0b1011), (0xFFFFFFFF, 0b0010), (0xFFFFFFFE, 0b1011), (0x7FFFFFFF, 0b1001), (0x0, 0b1101), (0x2, 0b1001), (0x4, 0b1001), (0x0, 0b1101)] &&
  aluRow 0x00 pairs [(0x0, 0b0100), (0x0, 0b0100), (0x0, 0b0100), (0xFFFFFFFF, 0b0010), (0x80000000, 0b0010), (0x0, 0b0100), (0x1, 0b0000), (0x1, 0b0000), (0x1, 0b0000)] &&
  aluRow 0x15 pairs [(0x0, 0b0100), (0xFFFFFFFF, 0b0010), (0xFFFFFFFF, 0b0010), (0xFFFFFFFF, 0b0010), (0x80000000, 0b0010), (0x80000001, 0b0010), (0x7, 0b0000), (0x7, 0b0000), (0x7FFFFFFF, 0b0000)] &&
  aluRow 0x0D pairs [(0xFFFFFFFF, 0b0010), (0xFFFFFFFF, 0b0010), (0x0, 0b0100), (0x0, 0b0100), (0x7FFFFFFF, 0b0000), (0x7FFFFFFF, 0b0000), (0xFFFFFFFA, 0b0010), (0xFFFFFFFC, 0b0010), (0x80000000, 0b0010)] &&
  aluRow 0x31 pairs [(0xFFFFFFFF, 0b0010), (0x0, 0b0100), (0xFFFFFFFF, 0b0010), (0x0, 0b0100), (0x7FFFFFFF, 0b0000), (0xFFFFFFFE, 0b0010), (0xFFFFFFFC, 0b0010), (0xFFFFFFFA, 0b0010), (0xFFFFFFFE, 0b0010)]) = true := by decide

/-- L2.2 (40_alu.md R109): ten unnamed microcodes. -/
theorem test_alu_unnamed_microcodes : (
  aluRow 0x3F [(5, 3), (0, 0), (0xFFFFFFFF, 1)] [(0x1, 0b1001), (0x1, 0b1001), (0x1, 0b1001)] &&
  aluRow 0x2A [(5, 3), (0, 0), (0xFFFFFFFF, 1)] [(0x0, 0b0100), (0x0, 0b0100), (0x0, 0b0100)] &&
  aluRow 0x01 [(5, 3), (0, 0), (0xFFFFFFFF, 1)] [(0xFFFFFFFE, 0b0010), (0xFFFFFFFF, 0b0010), (0xFFFFFFFE, 0b0010)] &&
  aluRow 0x10 [(5, 3), (0, 0), (0xFFFFFFFF, 1)] [(0x2, 0b0000), (0x0, 0b0100), (0x0, 0b0100)] &&
  aluRow 0x20 [(5, 3), (0, 0), (0xFFFFFFFF, 1)] [(0x0, 0b0100), (0x0, 0b0100), (0x0, 0b0100)] &&
  aluRow 0x3C [(5, 3), (0, 0), (0xFFFFFFFF, 1)] [(0xFFFFFFFF, 0b0010), (0xFFFFFFFF, 0b0010), (0xFFFFFFFF, 0b0010)] &&
  aluRow 0x03 [(5, 3), (0, 0), (0xFFFFFFFF, 1)] [(0xFFFFFFF7, 0b0010), (0xFFFFFFFF, 0b0010), (0xFFFFFFFF, 0b1011)] &&
  aluRow 0x2E [(5, 3), (0, 0), (0xFFFFFFFF, 1)] [(0xFFFFFFFF, 0b0010), (0xFFFFFFFF, 0b0010), (0xFFFFFFFF, 0b0010)] &&
  aluRow 0x08 [(5, 3), (0, 0), (0xFFFFFFFF, 1)] [(0x0, 0b0100), (0x0, 0b0100), (0x0, 0b0100)] &&
  aluRow 0x04 [(5, 3), (0, 0), (0xFFFFFFFF, 1)] [(0x4, 0b0000), (0x0, 0b0100), (0xFFFFFFFE, 0b0010)]) = true := by decide

/-- L2.5: every condition under each of the four columns. -/
theorem test_conditions :
    Cond.all.map (fun c => [0b0000, 0b1101, 0b0010, 0b1011].map (fun n => condHolds c (flagsOf n)))
      = [[.holds true, .holds true, .holds true, .holds true],
         [.holds false, .holds true, .holds false, .holds true],
         [.holds true, .holds false, .holds true, .holds false],
         [.holds false, .holds true, .holds false, .holds false],
         [.holds true, .holds false, .holds true, .holds true],
         [.holds false, .holds false, .holds true, .holds true],
         [.holds true, .holds true, .holds false, .holds false],
         [.reserved, .reserved, .reserved, .reserved],
         [.reserved, .reserved, .reserved, .reserved]] := by decide

/-! ## The memory-management unit (L2.10) -/

/-- Rows 1 to 7: the region's first address and the relative address, or none. -/
theorem test_translate :
    [0x0, 0xFF, 0x100, 0x10F, 0x110, 0xFFFFFFFF, 0x200].map
        (fun a => (translateAddr Config.defaultRegions a).map (fun p => (p.1.first, p.2)))
      = [some (0, 0), some (0, 0xFF), some (0x100, 0), some (0x100, 0xF), none, none, none] := by decide

/-- Row 8: a region of 0x80 words under the range [0, 0xFF]. -/
theorem test_backing_size :
    backed [⟨0, 0xFF, 0x80, .ram⟩] 0x80 = false ∧ backed [⟨0, 0xFF, 0x80, .ram⟩] 0x7F = true := by decide

/-! ## One step of each instruction -/

/-- AOPR, L2.6 row 2: 0xFFFFFFFF + 1. -/
theorem test_aopr_carry :
    (fun t => (t.reg 1, t.flags, t.pc)) (after (step (fetched [(1, 0xFFFFFFFF), (2, 1)] 0 [] 0x0C022080 0)))
      = (0, flagsOf 0b1101, 0x42) := by decide

/-- AOPR, L2.6 row 4: 3 - 5, which a swap of the operands would give as 2. -/
theorem test_aopr_borrow :
    (fun t => (t.reg 1, t.flags, t.reg 2)) (after (step (fetched [(1, 3), (2, 5)] 0 [] 0x0C0224C0 0)))
      = (0xFFFFFFFE, flagsOf 0b1011, 5) := by decide

/-- AOPI, L2.6 row 21: INC of all-ones clears overflow. -/
theorem test_aopi_wrap :
    (fun t => (t.reg 1, t.flags, t.pc)) (after (step (fetched [(1, 0xFFFFFFFF)] 0b1011 [] 0x1002F800 0)))
      = (0, flagsOf 0b0100, 0x42) := by decide

/-- AOPI, L2.6 row 27: MOVNG with negative false changes nothing. -/
theorem test_aopi_false_condition :
    (fun t => (t.reg 1, t.flags, t.pc)) (after (step (fetched [(1, 2)] 0 [] 0x11438000 1)))
      = (2, flagsOf 0, 0x42) := by decide

/-- LOADR, L2.7 row 2: the address register is the destination. -/
theorem test_loadr_same_register :
    (fun t => (t.reg 2, t.mar, t.mdr, t.flags))
        (after (step (fetched [(2, 0x10)] 0b1101 [(0x10, 0x2A)] 0x14042000 0)))
      = (0x2A, 0x10, 0x2A, flagsOf 0b1101) := by decide

/-- LOADR, L2.7 row 4: an address in no region. -/
theorem test_loadr_address_fault :
    faultOf (step (fetched [(2, 0x110)] 0 [] 0x14022000 0)) = some (.addressFault 0x110) := by decide

/-- STORR, L2.7 row 8: a console write and its event. -/
theorem test_storr_console :
    (fun t => (t.mem.read 0x105, t.consoleOut, t.mar, t.mdr))
        (after (step (fetched [(1, 0x48), (2, 0x105)] 0 [] 0x18022000 0)))
      = (some 0x48, [0x48], 0x105, 0x48) := by decide

/-- STORR, L2.7 row 6: RAM, no event. -/
theorem test_storr_ram :
    (fun t => (t.mem.read 0x10, t.consoleOut)) (after (step (fetched [(1, 7), (2, 0x10)] 0 [] 0x18022000 0)))
      = (some 7, []) := by decide

/-- LOAD, L2.7 row 11: a console read, no event. -/
theorem test_load_console :
    (fun t => (t.reg 3, t.consoleOut, t.pc)) (after (step (fetched [] 0 [(0x100, 0x41)] 0x1C060000 0x100)))
      = (0x41, [], 0x42) := by decide

/-- LOAD, L2.7 row 12: the last console word, never written. -/
theorem test_load_unwritten :
    faultOf (step (fetched [] 0 [] 0x1C060000 0x10F)) = some (.unwrittenRead 0x10F) := by decide

/-- STORE, L2.7 row 16: a store to the instruction's own high Word. -/
theorem test_store_own_word :
    (fun t => (t.mem.read 0x41, t.irb, t.pc)) (after (step (fetched [(1, 0)] 0 [] 0x20020000 0x41)))
      = (some 0, 0x41, 0x42) := by decide

/-- STORE, L2.7 row 17: one past the console; the memory is as it was. -/
theorem test_store_address_fault :
    (fun o => (faultOf o, (after o).mem)) (step (fetched [(1, 1)] 0 [] 0x20020000 0x110))
      = (some (.addressFault 0x110), [(0x40, 0x20020000), (0x41, 0x110)]) := by decide

/-- JMP, L2.8 rows 3 and 7: a target in no region, and a condition on overflow. -/
theorem test_jmp_target : (after (step (fetched [] 0 [] 0x04000000 0x123))).pc = 0x123 := by decide
theorem test_jmp_overflow :
    (fun t => (t.pc, t.flags)) (after (step (fetched [] 0b1001 [] 0x04400000 0x20))) = (0x20, flagsOf 0b1001) := by decide

/-- B, L2.8 rows 5 and 12: not taken, and EQ. -/
theorem test_b_not_taken : (after (step (fetched [] 0 [] 0x08C00000 0x20))).pc = 0x42 := by decide
theorem test_b_eq :
    faultOf (step (fetched [] 0b0100 [] 0x09C00000 0x20)) = some (.decodeError .reservedCondition) := by decide

/-- NOP, L2.8 rows 14 and 15: the target is ignored, and NE. -/
theorem test_nop_target : (after (step (fetched [] 0 [] 0x00000000 0x99))).pc = 0x42 := by decide
theorem test_nop_ne : faultOf (step (fetched [] 0 [] 0x02000000 0)) = some (.decodeError .reservedCondition) := by decide

/-- CLZ, L2.9 rows 1 and 4; the zero flag is not cleared. -/
theorem test_clz :
    (fun o => (faultOf o, (after o).flags)) (step (fetched [] 0b0100 [] 0x24000000 0))
      = (some (.unimplementedOpcode 0x09), flagsOf 0b0100) := by decide
theorem test_clz_false_condition : goesOn (step (fetched [] 0b0100 [] 0x25000000 0)) = true := by decide

/-- CLOF, L2.9 row 2. -/
theorem test_clof :
    (fun o => (faultOf o, (after o).flags)) (step (fetched [] 0b1001 [] 0x28000000 0))
      = (some (.unimplementedOpcode 0x0A), flagsOf 0b1001) := by decide

/-- CLNG, L2.9 rows 3 and 6: EQ faults first. -/
theorem test_clng :
    faultOf (step (fetched [] 0b0010 [] 0x2C000000 0)) = some (.unimplementedOpcode 0x0B) := by decide
theorem test_clng_eq :
    faultOf (step (fetched [] 0b0010 [] 0x2DC00000 0)) = some (.decodeError .reservedCondition) := by decide

/-! ## Pulses (L2.11) -/

/-- T1, pulse 1, with the first Words of L3 P1 at 0. -/
theorem test_fetch1 :
    (fun t => (t.cu, t.pc, t.mar, t.mdr, t.ira, t.aluA, t.aluB))
        (after (step { State.reset with mem := [(0, 0x10038000), (1, 5)] }))
      = (.fetch2, 0, 0, 0x10038000, 0x10038000, 0, 0x10038000) := by decide

/-- T1, pulse 2. -/
theorem test_fetch2 :
    (fun t => (t.cu, t.pc, t.mar, t.mdr, t.irb, t.aluA, t.aluB))
        (after (step { State.reset with mem := [(0, 0x10038000), (1, 5)], cu := .fetch2 }))
      = (.decode, 0, 1, 5, 5, 0, 5) := by decide

/-- T1, pulse 3. -/
theorem test_decode_pulse :
    (fun t => (t.cu, t.pc, t.aluA, t.cur)) (after (step { State.reset with ira := 0x10038000, irb := 5, cu := .decode }))
      = (.execute, 2, 1, some (.core (.aopi .always 1 0x30 5))) := by decide

/-- T2, pulse 3: the fault leaves `cu` in Decode and PC advanced. -/
theorem test_decode_fault :
    (fun o => (faultOf o, (after o).cu, (after o).pc, (after o).fault))
        (step { State.reset with ira := 0x30000000, cu := .decode })
      = (some (.decodeError .unknownOpcode), .decode, 2, some ⟨.decodeError .unknownOpcode, .decode, 2, 0x30000000, 0⟩) := by
  decide

/-- T3: a fetch from outside every region. -/
theorem test_fetch_address_fault :
    (fun o => (faultOf o, (after o).cu)) (step { State.reset with pc := 0x110 })
      = (some (.addressFault 0x110), .fetch1) := by decide

/-- The first step from State.reset itself, where no program is loaded (log 9, L2.12 row 6). -/
theorem test_reset_unwritten : faultOf (step State.reset) = some (.unwrittenRead 0) := by decide

/-! ## Loading (L2.12) and assembling (L2.13) -/

/-- The 48 bytes of L3 P1. -/
def p1File : List Byte :=
  [0, 0, 0, 1, 0, 0, 0, 0, 0, 0, 0, 0xFF, 0, 0, 1, 0, 0, 0, 1, 0x0F, 0, 0, 0, 0] ++
  [0x10, 0x03, 0x80, 0, 0, 0, 0, 5, 0x10, 0x02, 0x10, 0, 0, 0, 0, 1, 4, 0, 0, 0, 0, 0, 0, 0]

/-- The parameters of L2.12. -/
def p1Params : LoadParams := ⟨Config.default, 1, none, none, InitState.zero⟩

/-- The state a load leads to. -/
def loaded (p : LoadParams) (file : List Byte) : Option State :=
  match load p file with
  | .ok s => some s
  | .error _ => none

/-- Why a load failed. -/
def loadError (p : LoadParams) (file : List Byte) : Option LoadError :=
  match load p file with
  | .ok _ => none
  | .error e => some e

/-- Row 1. -/
theorem test_load :
    (loaded p1Params p1File).map (fun s => (s.mem, s.pc, s.cu, s.config.regions))
      = some ([(0, 0x10038000), (1, 5), (2, 0x10021000), (3, 1), (4, 0x04000000), (5, 0)], 0, .fetch1,
              Config.defaultRegions) := by decide

/-- Rows 2 to 5. -/
theorem test_load_failures :
    loadError p1Params ([0, 0, 0, 2] ++ p1File.drop 4) = some .versionMismatch ∧
    loadError p1Params (p1File.take 44) = some .malformedExecutable ∧
    loadError p1Params (p1File.take 47) = some .malformedExecutable ∧
    loadError p1Params (p1File.take 20) = some .malformedExecutable := by decide

/-- Rows 8 and 9, and a program Word outside every region. -/
theorem test_load_regions :
    loadError p1Params (p1File.take 12 ++ [0, 0, 0, 0x80] ++ p1File.drop 16) = some .refusedRegions ∧
    loadError p1Params (p1File.take 12 ++ [0, 0, 1, 0x0F, 0, 0, 1, 0] ++ p1File.drop 20) = some .refusedRegions ∧
    loadError { p1Params with loadBase := some 0x10C } p1File = some (.addressFault 0x110) := by decide

/-- Four registers, as in L2.13. -/
def asmConfig : Config := { Config.default with regCodes := regCodesUpTo 4 }

/-- Rows 1 to 6. -/
theorem test_assemble :
    assemble asmConfig "add GP1, GP2".toList = .words [0x0C022080, 0] ∧
    assemble asmConfig "ADD GP1,GP2".toList = .words [0x0C022080, 0] ∧
    assemble asmConfig "MOV GP1, 5 ; set".toList = .words [0x10038000, 5] ∧
    assemble asmConfig "; only a comment\n".toList = .words [] ∧
    assemble asmConfig "MOV GP1, 0xfF".toList = .words [0x10038000, 0xFF] ∧
    assemble asmConfig "SUB GP1, 0b101".toList = .words [0x10029800, 5] := by decide

/-- Rows 7 to 10. -/
theorem test_assemble_conditions :
    assemble asmConfig "NOPZR".toList = .words [0x00C00000, 0] ∧
    assemble asmConfig "B 0x10".toList = .words [0x08000000, 0x10] ∧
    assemble asmConfig "BNE 0x10".toList = .words [0x0A000000, 0x10] ∧
    assemble asmConfig "INCNN GP4".toList = .words [0x1188F800, 0] := by decide

/-- Rows 11 to 18. -/
theorem test_assemble_errors :
    assemble asmConfig "FOO GP1".toList = .encodingError 1 .unknownMnemonic ∧
    assemble asmConfig "ADDXX GP1, GP2".toList = .encodingError 1 .unknownMnemonic ∧
    assemble asmConfig "MOV gp1, 5".toList = .encodingError 1 .unknownRegister ∧
    assemble asmConfig "MOV GP5, 1".toList = .encodingError 1 .unknownRegister ∧
    assemble asmConfig "MOV GP0, 1".toList = .encodingError 1 .unknownRegister ∧
    assemble asmConfig "MOV GP1, 0X10".toList = .encodingError 1 .unknownRegister ∧
    assemble asmConfig "MOV GP1, 4294967296".toList = .encodingError 1 .unknownRegister ∧
    assemble asmConfig "MOV GP1, -1".toList = .encodingError 1 .unknownRegister := by decide

/-- Rows 19 to 25. -/
theorem test_assemble_operands :
    assemble asmConfig "MOV GP1, 0b102".toList = .encodingError 1 .unknownRegister ∧
    assemble asmConfig "JMP".toList = .encodingError 1 .operandCount ∧
    assemble asmConfig "INC GP1, 5".toList = .encodingError 1 .operandCount ∧
    assemble asmConfig "NOP 5".toList = .encodingError 1 .operandCount ∧
    assemble asmConfig "JMP GP1".toList = .encodingError 1 .notALiteral ∧
    assemble asmConfig "LOAD GP1, GP2".toList = .encodingError 1 .notALiteral ∧
    assemble asmConfig "MOV GP1, 5\nFOO".toList = .encodingError 2 .unknownMnemonic := by decide

/-- L1.6 and L2.12: the source's scenario assembles to the 48 bytes of L3 P1, `CODEC_VERSION` 1 in Word 0 (R165); a text
that does not assemble gives no file. -/
theorem test_assemble_file :
    assembleFile asmConfig 1 ⟨0, 0xFF, 0x100, 0x10F, 0⟩ "MOV GP1, 5\nADD GP1, 1\nJMP 0x00".toList = .file p1File ∧
    assembleFile asmConfig 1 ⟨0, 0xFF, 0x100, 0x10F, 0⟩ "NOP\nJMP".toList = .encodingError 2 .operandCount := by decide

/-- R75: blank lines are skipped and still counted; a line of commas is no blank line. -/
theorem test_assemble_blank_lines :
    assemble asmConfig "\n \t; note\nNOP\n".toList = .words [0, 0] ∧
    assemble asmConfig "\n , ,; note\nNOP".toList = .encodingError 2 .unknownMnemonic := by decide

/-! ## Witnesses: a state and operands that meet all the hypotheses of each obligation together -/

/-- Parameters with an extra opcode of each type, reserved bits ignored, and two constant registers. -/
def wideConfig : Config :=
  { Config.default with
    extra := [(0x0C, .register), (0x3F, .immediate), (0x20, .jump)], reservedBits := .ignore, constRegs := [7, 0xFFFFFFFF] }

/-- The state in Execute of ADD GP1, GP31. -/
def aluState : State := fetched [(1, 5), (31, 3)] 0b0100 [] 0x0C03F080 0

/-- The state in Execute of STORE GP1, 0x10F, the last console word. -/
def storeState : State := fetched [(1, 0x48)] 0 [] 0x20020000 0x10F

/-- The state in Execute of JMP 0xFFFFFFFF. -/
def jumpState : State := fetched [] 0b1001 [] 0x04000000 0xFFFFFFFF

/-- The state in Execute of LOAD GP3, 0x10 with a Word there. -/
def loadState : State := fetched [] 0b1011 [(0x10, 0x2A)] 0x1C060000 0x10

/-- About to fetch NOP at 0xFF, its high Word being the first console word (L2.11 T5). -/
def fetchState : State := { State.reset with pc := 0xFF, mem := [(0xFF, 0), (0x100, 0x41)] }

theorem aluState_inv : MachineInv aluState :=
  ⟨by decide, by decide, by decide, by decide, by decide, by decide, by decide,
    fun _ => ⟨.core (.aopr .always 1 31 0x02), by decide, by decide⟩⟩

theorem storeState_inv : MachineInv storeState :=
  ⟨by decide, by decide, by decide, by decide, by decide, by decide, by decide,
    fun _ => ⟨.core (.store .always 1 0 0x10F), by decide, by decide⟩⟩

theorem jumpState_inv : MachineInv jumpState :=
  ⟨by decide, by decide, by decide, by decide, by decide, by decide, by decide,
    fun _ => ⟨.core (.jmp .always 0xFFFFFFFF), by decide, by decide⟩⟩

theorem loadState_inv : MachineInv loadState :=
  ⟨by decide, by decide, by decide, by decide, by decide, by decide, by decide,
    fun _ => ⟨.core (.load .always 3 0 0x10), by decide, by decide⟩⟩

theorem fetchState_inv : MachineInv fetchState :=
  ⟨by decide, by decide, by decide, by decide, by decide, by decide, by decide, fun h => absurd h (by decide)⟩

theorem witness_CodecRoundTrip :
    wideConfig.wf = true ∧ Config.default.wf = true ∧
    Decoded.wf wideConfig (.core (.aopr .eq 31 1 0x3F)) = true ∧
    Decoded.wf wideConfig (.extra (.register 0x0C .ne 0 31 0x3F)) = true ∧
    Decoded.wf wideConfig (.extra (.immediate 0x3F .always 31 0x3F 0xFFFFFFFF)) = true ∧
    decode wideConfig 0x0C022081 1 = .ok (.core (.aopr .always 1 2 0x02)) ∧
    reservedSet .register 0x0C022081 1 = true ∧
    Config.default.reservedBits = .fault ∧ dec 0x0C022080 0 = .ok (.core (.aopr .always 1 2 0x02)) := by decide

theorem witness_DecodeErrorsNameTheirField :
    wideConfig.wf = true ∧ decode wideConfig 0x34000000 0 = .error .unknownOpcode ∧
    decode wideConfig 0x32400000 0 = .error .unknownCondition ∧
    decode wideConfig 0x30000000 0 = .ok (.extra (.register 0x0C .always 0 0 0)) := by decide

theorem witness_RegisterFieldsCheckedWhereUsed :
    Config.wf { Config.default with regCodes := regCodesUpTo 1 } = true ∧
    Config.wf { Config.default with regCodes := regCodesUpTo 31 } = true := by decide

theorem witness_ReservedBitsPolicyDecides :
    decode { Config.default with reservedBits := .ignore } 0x04200000 0 = .ok (.core (.jmp .always 0)) ∧
    reservedSet .jump 0x04200000 0 = true ∧
    decode { Config.default with reservedBits := .ignore } 0x04000000 0 = .ok (.core (.jmp .always 0)) ∧
    reservedSet .jump 0x04000000 0 = false ∧
    decode { Config.default with reservedBits := .ignore } 0x0C022081 1 = .ok (.core (.aopr .always 1 2 0x02)) ∧
    decode { Config.default with reservedBits := .ignore } 0x0C000001 1 = .error .unknownRegister := by decide

theorem witness_ZeroedOperandIsIgnored : (0x20 : Microcode).getLsbD 5 = true ∧ (0x08 : Microcode).getLsbD 3 = true := by
  decide

theorem witness_FirstContainingRegionWins :
    translateAddr Config.defaultRegions 0x100 = some (Region.ofBounds 0x100 0x10F .console, 0) ∧
    (∀ r ∈ State.reset.config.regions, ¬ (r.first ≤ (0x110 : Word) ∧ (0x110 : Word) ≤ r.last)) := by decide

/-- A region of 0x80 words under the range [0, 0xFF] (L2.10 row 8). -/
theorem witness_BackingSizeBoundsTheAccess :
    translateAddr [⟨0, 0xFF, 0x80, .ram⟩] 0x80 = some (⟨0, 0xFF, 0x80, .ram⟩, 0x80) ∧
    translateAddr [⟨0, 0xFF, 0x80, .ram⟩] 0x7F = some (⟨0, 0xFF, 0x80, .ram⟩, 0x7F) ∧
    0x80 ≤ (0x80 : Word).toNat ∧ (0x7F : Word).toNat < 0x80 := by decide

/-- With `fe` true and false, to a register, to memory through MDR, and to VOID. -/
theorem witness_MicroOperationWritesOnceAndCommitsOnce :
    (∃ t, uop (some (.gp 1)) (some (.gp 31)) 0x02 (.gp 1) { aluState with fe := true } = .ok t) ∧
    (∃ t, uop (some (.gp 1)) none 0x0C .mdr { storeState with mar := 0x10F } = .ok t) ∧
    (∃ t, uop none none 0x2A .void aluState = .ok t) := ⟨⟨_, rfl⟩, ⟨_, rfl⟩, ⟨_, rfl⟩⟩

/-- One selection for each clause: a code and a constant register that name no cell, VOID as a source, a constant
register as destination, and a legal one; and a selection with both defects. -/
theorem witness_IllegalSelectionChangesNothing :
    State.reset.config.isGpr 0 = false ∧ wideConfig.constRegs.length ≤ 2 ∧ ¬ wideConfig.constRegs.length ≤ 1 ∧
    resolveUop wideConfig (some (.gp 0)) none .mar = some .illegalAddress ∧
    resolveUop wideConfig none none (.const 2) = some .illegalAddress ∧
    resolveUop wideConfig (some .void) none .mar = some .accessViolation ∧
    resolveUop wideConfig none (some .void) .mar = some .accessViolation ∧
    resolveUop wideConfig none none (.const 1) = some .accessViolation ∧
    resolveUop wideConfig (some (.const 1)) (some .mdr) .void = none ∧
    resolveUop wideConfig (some .void) (some (.gp 0)) .mar = some .illegalAddress := by decide

/-- A fault from a state that meets the invariant: a fetch from outside every region. -/
def strayState : State := { fetchState with pc := 0x110 }

theorem strayState_inv : MachineInv strayState :=
  ⟨by decide, by decide, by decide, by decide, by decide, by decide, by decide, fun h => absurd h (by decide)⟩

theorem witness_DecodedInstructionsRaiseNoFabricError : MachineInv strayState ∧ ∃ f, step strayState = .fault f :=
  ⟨strayState_inv, _, rfl⟩

/-- A destination MDR, a source MDR on each bus, and neither. -/
theorem witness_MemoryIsReachedThroughMdr :
    (∃ t, uop (some (.gp 1)) none 0x0C .mdr { storeState with mar := 0x10F } = .ok t) ∧
    (∃ t, uop none (some .mdr) 0x30 (.gp 31) { loadState with mar := 0x10 } = .ok t) ∧
    (∃ t, uop (some .mdr) none 0x0C .void { loadState with mar := 0x10 } = .ok t) ∧
    (∃ t, uop (some .pc) (some .mar) 0x02 .mar aluState = .ok t) := ⟨⟨_, rfl⟩, ⟨_, rfl⟩, ⟨_, rfl⟩, ⟨_, rfl⟩⟩

theorem witness_FetchOneLoadsIra :
    (fetchState.fault = none ∧ fetchState.cu = .fetch1 ∧ fetchState.fe = false ∧ fetchState.mem.read 0xFF = some 0) ∧
    memRead fetchState fetchState.pc = .ok 0 ∧ memRead State.reset State.reset.pc = .error (.unwrittenRead 0) :=
  ⟨by decide, rfl, rfl⟩

/-- The wrap of PC + 1 too: 0xFFFFFFFF is in no region, and its successor is 0. -/
theorem witness_FetchTwoLoadsIrb :
    (fetchState.fault = none ∧ ({ fetchState with cu := .fetch2 } : State).cu = .fetch2 ∧ fetchState.fe = false) ∧
    memRead { fetchState with cu := .fetch2 } (fetchState.pc + 1) = .ok 0x41 ∧
    memRead { fetchState with cu := .fetch2, pc := 0x10F } 0x110 = .error (.addressFault 0x110) ∧
    memRead { fetchState with cu := .fetch2, pc := 0xFFFFFFFF } (0xFFFFFFFF + 1) = .error (.unwrittenRead 0) :=
  ⟨by decide, rfl, rfl, rfl⟩

theorem witness_DecodeAdvancesPcThenChecks :
    decode Config.default 0 0xFFFFFFFF = .ok (.core (.nop .always 0xFFFFFFFF)) ∧
    decode Config.default 0x30000000 0 = .error .unknownOpcode ∧
    State.reset.fault = none ∧ ({ State.reset with cu := .decode } : State).cu = .decode ∧ State.reset.fe = false := by
  decide

theorem witness_StepRunsTheDecodedInstruction :
    (fetchState.fault = none ∧ fetchState.fe = false ∧ fetchState.cu = .fetch1 ∧
      decode fetchState.config 0 0x41 = .ok (.core (.nop .always 0x41))) ∧
    memRead fetchState fetchState.pc = .ok 0 ∧ memRead fetchState (fetchState.pc + 1) = .ok 0x41 ∧
    decode wideConfig 0xFC000000 0x41 = .ok (.extra (.immediate 0x3F .always 0 0 0x41)) ∧
    memRead { fetchState with config := wideConfig, mem := [(0xFF, 0xFC000000), (0x100, 0x41)] } 0xFF = .ok 0xFC000000 :=
  ⟨by decide, rfl, rfl, by decide, rfl⟩

/-- A step that goes on in each of the four phases. -/
theorem witness_PhasesFollowInOrder :
    fetchState.cu = .fetch1 ∧ goesOn (step fetchState) = true ∧
    goesOn (step { fetchState with cu := .fetch2 }) = true ∧
    goesOn (step { State.reset with cu := .decode }) = true ∧
    aluState.cu = .execute ∧ goesOn (step aluState) = true := by decide

theorem witness_EveryInstructionTakesFourPulses :
    fetchState.cu = .fetch1 ∧ goesOn (runSteps (4 * 0 + 3) fetchState) = true ∧
    goesOn (runSteps (4 * 1) fetchState) = true := by decide

theorem witness_FaultIsRecordedAndFinal :
    MachineInv strayState ∧ faultOf (step strayState) = some (.addressFault 0x110) := ⟨strayState_inv, by decide⟩

/-- R150, R172: the Fetch1 that faults at `STOP_PC` leaves no final state; the state before it was one. -/
theorem test_faulted_is_not_final :
    strayState.atStop 0x110 = true ∧ (after (step strayState)).atStop 0x110 = false ∧
    State.atStop { strayState with fault := some ⟨.addressFault 0x110, .fetch1, 0x110, 0, 0⟩ } 0x110 = false := by decide

theorem witness_ConditionsTestTheirFlag : CondReserved (Instr.cond (.store .eq 1 0 0)) ∧ CondReserved (Instr.cond (.clz .ne 0 0 0)) :=
  ⟨.inl rfl, .inr rfl⟩

theorem witness_FalseOrReservedConditionRunsNothing :
    CondFalse .nz aluState ∧ CondFalse (Instr.cond (.clz .nz 0 0 0)) aluState ∧
    CondFalse (ExtraInstr.cond (.jump 0x20 .of 0)) aluState ∧
    CondReserved (Instr.cond (.nop .ne 0)) ∧ CondReserved (ExtraInstr.cond (.jump 0x20 .eq 0)) := by
  exact ⟨by decide, by decide, by decide, .inr rfl, .inl rfl⟩

theorem witness_AoprComputesIntoDest :
    CondTrue .zr aluState ∧ aluState.config.isGpr 1 = true ∧ aluState.config.isGpr 31 = true := by decide

theorem witness_AopiComputesIntoDest :
    CondTrue .zr aluState ∧ aluState.config.isGpr 31 = true ∧ ({ aluState with irb := 0xFFFFFFFF } : State).irb = 0xFFFFFFFF := by
  decide

/-- Both clauses: a Word to read at GP2, and a GP2 in no region. -/
theorem witness_LoadrLoadsThroughRegister :
    (CondTrue .always loadState ∧ loadState.config.isGpr 1 = true ∧ loadState.config.isGpr 2 = true ∧ loadState.fe = false) ∧
    memRead { loadState with gpr := gprs [(2, 0x10)] } 0x10 = .ok 0x2A ∧
    memRead { loadState with gpr := gprs [(2, 0x110)] } 0x110 = .error (.addressFault 0x110) :=
  ⟨by decide, rfl, rfl⟩

/-- Both clauses, at the last console word and one past it. -/
theorem witness_StorrStoresThroughRegister :
    CondTrue .always storeState ∧ storeState.config.isGpr 1 = true ∧ storeState.config.isGpr 31 = true ∧
    storeState.fe = false ∧ backed storeState.config.regions 0x10F = true ∧ backed storeState.config.regions 0x110 = false := by
  decide

theorem witness_LoadLoadsAbsolute :
    (CondTrue .ng loadState ∧ loadState.config.isGpr 3 = true ∧ loadState.fe = false ∧ loadState.irb = 0x10) ∧
    memRead loadState 0x10 = .ok 0x2A ∧ memRead { loadState with irb := 0x110 } 0x110 = .error (.addressFault 0x110) :=
  ⟨by decide, rfl, rfl⟩

theorem witness_StoreStoresAbsolute :
    CondTrue .always storeState ∧ storeState.config.isGpr 1 = true ∧ storeState.fe = false ∧ storeState.irb = 0x10F ∧
    backed storeState.config.regions 0x10F = true ∧ backed storeState.config.regions 0x110 = false := by decide

theorem witness_JumpsSetPcToTarget : CondTrue .of jumpState ∧ jumpState.fe = false ∧ jumpState.irb = 0xFFFFFFFF := by
  decide

theorem witness_NopHasNoEffect : CondTrue .nn jumpState := by decide

theorem witness_UnimplementedOpcodesAreExplicit :
    CondTrue .zr aluState ∧ ExtraInstr.cond (.register 0x0C .zr 0 31 0x3F) = .zr := by decide

theorem witness_UnnamedRegisterStops :
    Instr.wf aluState.config (.aopr .zr 0 31 0x02) = false ∧ Instr.wf aluState.config (.storr .zr 31 0 0) = false ∧
    CondTrue (Instr.cond (.aopr .zr 0 31 0x02)) aluState := by decide

theorem witness_AluInstructionFrame :
    goesOn (exec (.aopr .always 1 31 0x02) aluState) = true ∧ goesOn (exec (.aopi .nz 1 0x02 5) aluState) = true ∧
    CondFalse .nz aluState := by decide

theorem witness_LoadFrame :
    loadState.fe = false ∧ goesOn (exec (.load .always 3 0 0x10) loadState) = true ∧
    goesOn (exec (.loadr .always 3 3 0) { loadState with gpr := gprs [(3, 0x10)] }) = true := by decide

theorem witness_StoreFrame :
    storeState.fe = false ∧ goesOn (exec (.store .always 1 0 0x10F) storeState) = true ∧
    goesOn (exec (.storr .always 1 1 0) { storeState with gpr := gprs [(1, 0x10F)] }) = true ∧
    CondTrue .always storeState ∧ CondFalse .of storeState ∧ goesOn (exec (.store .of 1 0 0x10F) storeState) = true := by
  decide

theorem witness_JumpNopAndClearFrame :
    jumpState.fe = false ∧ goesOn (exec (.b .always 0xFFFFFFFF) jumpState) = true ∧
    goesOn (exec (.nop .always 0) jumpState) = true ∧ goesOn (exec (.clz .zr 0 0 0) jumpState) = true := by decide

theorem witness_StepKeepsInvariant : MachineInv storeState ∧ step storeState = .next (after (step storeState)) :=
  ⟨storeState_inv, next_after (by decide)⟩

theorem witness_LaunchMeetsInvariant :
    p1Params.config.wf = true ∧ p1Params.init.mem.wf = true ∧
    p1Params.init.flags.carry = p1Params.init.flags.overflow ∧ (loaded p1Params p1File).isSome = true ∧
    (∀ c ∈ p1Params.init.mem, backed Config.defaultRegions (BitVec.ofNat 32 c.1) = true) := by decide

/-- One state for the I-type clause and one for the J-type clause, their high Words at the top of the range. -/
theorem witness_ExecuteFindsItsOperandInIrb :
    (MachineInv storeState ∧ storeState.cu = .execute ∧ storeState.cur = some (.core (.store .always 1 0 0x10F))) ∧
    (MachineInv jumpState ∧ jumpState.cu = .execute ∧ jumpState.cur = some (.core (.jmp .always 0xFFFFFFFF))) :=
  ⟨⟨storeState_inv, by decide, by decide⟩, jumpState_inv, by decide, by decide⟩

theorem witness_FlagsChangeOnlyInAluExecute :
    MachineInv aluState ∧ step aluState = .next (after (step aluState)) ∧ (after (step aluState)).flags ≠ aluState.flags :=
  ⟨aluState_inv, next_after (by decide), by decide⟩

/-- A jump, and a step in Decode. -/
theorem witness_PcChangesOnlyInDecodeAndJumps :
    (MachineInv jumpState ∧ step jumpState = .next (after (step jumpState)) ∧ jumpState.cu ≠ .decode ∧
      (after (step jumpState)).pc ≠ jumpState.pc) ∧
    (MachineInv { State.reset with cu := .decode } ∧ goesOn (step { State.reset with cu := .decode }) = true) :=
  ⟨⟨jumpState_inv, next_after (by decide), by decide, by decide⟩,
   ⟨by decide, by decide, by decide, by decide, by decide, by decide, by decide, fun h => absurd h (by decide)⟩, by decide⟩

theorem witness_RegistersChangeOnlyAsDest :
    MachineInv loadState ∧ step loadState = .next (after (step loadState)) ∧
    (after (step loadState)).reg 3 ≠ loadState.reg 3 :=
  ⟨loadState_inv, next_after (by decide), by decide⟩

/-- A store that changes memory and emits an event, and a fetch that does neither. -/
theorem witness_MemoryAndConsoleChangeOnlyInStores :
    (MachineInv storeState ∧ goesOn (step storeState) = true ∧ (after (step storeState)).consoleOut = [0x48]) ∧
    (MachineInv fetchState ∧ goesOn (step fetchState) = true) :=
  ⟨⟨storeState_inv, by decide, by decide⟩, fetchState_inv, by decide⟩

theorem witness_ParametersNeverChange : goesOn (step aluState) = true := by decide

/-- STORE to the address PC holds: the word after it. -/
theorem witness_FetchSeesTheStore :
    (fun s : State => s.fault = none ∧ s.fe = false ∧ CondTrue .always s ∧ s.config.isGpr 1 = true ∧ s.irb = 0x42 ∧
      s.pc = 0x42 ∧ backed s.config.regions 0x42 = true) (fetched [(1, 0)] 0 [] 0x20020000 0x42) := by decide

/-- A step that goes on and one that faults. -/
theorem witness_ConstantRegistersAreUnobservable :
    goesOn (step aluState) = true ∧ aluState.config.constRegs = [] ∧ (aluState.withConstRegs [7]).config.constRegs = [7] ∧
    faultOf (step strayState) = some (.addressFault 0x110) := by decide

/-- A file that reads, an even program, and the first and last Words of a header and program (L2.12). -/
theorem witness_ContainerRoundTrip :
    (let ws : List Word := [1, 0, 0xFF, 0x100, 0x10F, 0] ++ [0x10038000, 5]
     ws[0]? = some 1 ∧ ws[7]? = some 5 ∧ ws[8]? = none) ∧
    (wordsOfBytes p1File).map List.length = some 12 ∧ [0x10038000, (5 : Word)].length % 2 = 0 ∧
    (match readContainer p1File with
      | .ok p => p.2.length
      | .error _ => 0) = 6 := by decide

theorem witness_LoadGivesTheLaunchState : (loaded p1Params p1File).isSome = true := by decide

theorem witness_VersionMismatchStopsTheLoad :
    ([] : List Word).length % 2 = 0 ∧ (Header.mk 2 0 0xFF 0x100 0x10F 0).version ≠ p1Params.codecVersion := by decide

theorem witness_AssembledPairsDecode :
    asmConfig.wf = true ∧ assemble asmConfig "MOV GP4, 0\nB 0".toList = .words [0x10098000, 0, 0x08000000, 0] := by decide

/-- A text that assembles, and one that does not. -/
theorem witness_AssembledFilesCarryTheCodecVersion :
    assemble asmConfig "B 0".toList = .words [0x08000000, 0] ∧
    assemble asmConfig "B".toList = .encodingError 1 .operandCount ∧ p1Params.codecVersion = 1 := by decide

end Sys2Proof.Tests
end

section
/-! SUPPORT. What a step leaves of PC, the general-purpose registers and the operand in IRB, what a refused selection
leaves, and that the constant registers influence no step (10_state.md). -/

namespace Sys2Proof.Machine

open Sys2Proof

/-! ## Illegal selections (41_fabric.md R114, R116) -/

/-- The addresses outside the bus address space (10_state.md R25). -/
theorem exists_eq_false_iff (k : Config) (r : BusAddr) :
    r.exists k = false ↔
      (∃ c, r = .gp c ∧ k.isGpr c = false) ∨ (∃ n, r = .const n ∧ k.constRegs.length ≤ n) := by
  cases r <;> simp [BusAddr.exists]

theorem feedNamed_eq_false_iff (k : Config) (src : Option BusAddr) :
    feedNamed k src = false ↔ ∃ r, src = some r ∧ r.exists k = false := by
  cases src <;> simp [feedNamed]

theorem feedReadable_eq_false_iff (src : Option BusAddr) : feedReadable src = false ↔ src = some .void := by
  rcases src with _ | r
  · simp [feedReadable]
  · cases r <;> simp [feedReadable, BusAddr.access]

theorem access_readOnly_iff (r : BusAddr) : r.access = .readOnly ↔ ∃ n, r = .const n := by
  cases r <;> simp [BusAddr.access]

/-- The first check of R116 fails exactly where some selected address names no cell. -/
theorem named_eq_false_iff (k : Config) (srcA srcB : Option BusAddr) (dst : BusAddr) :
    (feedNamed k srcA && feedNamed k srcB && dst.exists k) = false ↔
      ∃ r, (srcA = some r ∨ srcB = some r ∨ dst = r) ∧ r.exists k = false := by
  simp only [Bool.and_eq_false_iff, feedNamed_eq_false_iff, or_and_right, exists_or, exists_eq_left', or_assoc]

/-- The second check of R116 fails exactly where VOID is a source or a constant register the destination. -/
theorem access_eq_false_iff (srcA srcB : Option BusAddr) (dst : BusAddr) :
    (feedReadable srcA && feedReadable srcB && (dst.access != .readOnly)) = false ↔
      srcA = some .void ∨ srcB = some .void ∨ ∃ n, dst = .const n := by
  simp only [Bool.and_eq_false_iff, feedReadable_eq_false_iff, bne_eq_false_iff_eq, access_readOnly_iff, or_assoc]

/-- A micro-operation whose selection is refused raises that FabricError and leaves the state as it was. -/
theorem uop_of_refused {srcA srcB : Option BusAddr} {op : Microcode} {dst : BusAddr} {s : State} {e : FabricError}
    (h : resolveUop s.config srcA srcB dst = some e) : uop srcA srcB op dst s = .raised (.fabricError e) s := by
  simp only [uop, h]

/-- Settles O14: the checks of `resolveUop` one after the other; a selection that passes both raises only memory
faults. -/
theorem illegalSelectionChangesNothing : Obligations.IllegalSelectionChangesNothing := by
  unfold Obligations.IllegalSelectionChangesNothing
  intro srcA srcB op dst s noCell someNoCell badAccess
  have hnamed : (feedNamed s.config srcA && feedNamed s.config srcB && dst.exists s.config) = false ↔ someNoCell := by
    simp only [named_eq_false_iff, exists_eq_false_iff, someNoCell, noCell]
  have haccess := access_eq_false_iff srcA srcB dst
  refine ⟨fun hno => ?_, fun hno hbad => ?_, fun hno hbad e t hu => ?_⟩
  · exact uop_of_refused (by rw [resolveUop, if_pos (hnamed.2 hno)])
  · exact uop_of_refused (by rw [resolveUop, if_neg (mt hnamed.1 hno), if_pos (haccess.2 hbad)])
  · have hpass : resolveUop s.config srcA srcB dst = none := by
      rw [resolveUop, if_neg (mt hnamed.1 hno), if_neg (mt haccess.1 hbad)]
    exact uop_raised_kind hpass hu e rfl

/-! ## The operand in IRB (10_state.md R23, 30_encoding.md R60) -/

/-- The immediate or target of a table instruction that has one. -/
def immediateOrTarget : Instr → Option Word
  | .nop _ t | .jmp _ t | .b _ t => some t
  | .aopi _ _ _ imm | .load _ _ _ imm | .store _ _ _ imm => some imm
  | .aopr .. | .loadr .. | .storr .. | .clz .. | .clof .. | .clng .. => none

/-- The fields of a pair give no immediate or target but the high Word. -/
theorem immediateOrTarget_buildInstr {r : OpcodeRef} {c : Cond} {w0 w1 : Word} {i : Instr}
    (h : .core i = buildInstr r c w0 w1) : ∀ w ∈ immediateOrTarget i, w1 = w := by
  rcases r with op | ⟨v, t⟩
  · cases op <;> cases h <;> simp [immediateOrTarget]
  · cases t <;> cases h

/-- In Execute, IRB is the immediate or target of the current instruction, and the register fields it uses name
registers: `cur` is the decode of IRA and IRB (10_state.md R31). -/
theorem current_operand {s : State} {i : Instr} (hi : MachineInv s) (hc : s.cu = .execute)
    (hcur : s.cur = some (.core i)) :
    (∀ w ∈ immediateOrTarget i, s.irb = w) ∧ ∀ d ∈ i.usedRegs, s.config.isGpr d = true := by
  obtain ⟨d, hd, hdec⟩ := hi.current hc
  obtain rfl : .core i = d := Option.some.inj (hcur.symm.trans hd)
  obtain ⟨r, c, -, -, hbuild, hwf, -⟩ := decode_ok hdec
  exact ⟨immediateOrTarget_buildInstr hbuild, List.all_eq_true.1 hwf⟩

/-- Settles O42, by the invariant's clause on Execute through `current_operand`. -/
theorem executeFindsItsOperandInIrb : Obligations.ExecuteFindsItsOperandInIrb := by
  unfold Obligations.ExecuteFindsItsOperandInIrb
  intro s hi hc
  constructor
  · rintro c d a imm (h | h | h) <;>
      exact ⟨(current_operand hi hc h).1 imm rfl, (current_operand hi hc h).2 d List.mem_cons_self⟩
  · rintro c t (h | h | h) <;> exact (current_operand hi hc h).1 t rfl

/-! ## PC and the general-purpose registers (10_state.md R18, R19) -/

/-- A routine leaves PC, or is a jump's and sets it to IRB. -/
theorem RoutineEffect.pc {i : Instr} {s u : State} (h : RoutineEffect i s u) :
    u.pc = s.pc ∨ (u.pc = s.irb ∧ i.opcode ∈ [Opcode.jmp, .b]) := by
  cases i with
  | nop c t => cases h; exact .inl rfl
  | jmp c t => cases h; exact .inr ⟨rfl, by simp [Instr.opcode]⟩
  | b c t => cases h; exact .inr ⟨rfl, by simp [Instr.opcode]⟩
  | aopr c d r a => obtain ⟨-, -, rfl⟩ := h; exact .inl rfl
  | aopi c d a imm => obtain ⟨-, rfl⟩ := h; exact .inl rfl
  | loadr c d r a => obtain ⟨-, -, w, -, rfl⟩ := h; exact .inl rfl
  | storr c d r a => obtain ⟨-, -, -, rfl⟩ := h; exact .inl rfl
  | load c d a imm => obtain ⟨-, w, -, rfl⟩ := h; exact .inl rfl
  | store c d a imm => obtain ⟨-, -, rfl⟩ := h; exact .inl rfl
  | clz | clof | clng => cases h

/-- Settles O44, by the cases of a step: Fetch1, Fetch2 and a false condition leave PC, and a routine does what
`RoutineEffect.pc` says. -/
theorem pcChangesOnlyInDecodeAndJumps : Obligations.PcChangesOnlyInDecodeAndJumps := by
  unfold Obligations.PcChangesOnlyInDecodeAndJumps
  intro s t hi h
  rcases step_inv_cases hi h with
    ⟨hc, w, -, rfl⟩ | ⟨hc, w, -, rfl⟩ | ⟨hc, d, -, rfl⟩ | ⟨hc, d, -, -, rfl⟩ | ⟨hc, i, u, hcur, ht, hu, rfl⟩
  · exact ⟨fun hd => by simp [hc] at hd, fun _ hpc => absurd rfl hpc⟩
  · exact ⟨fun hd => by simp [hc] at hd, fun _ hpc => absurd rfl hpc⟩
  · exact ⟨fun _ => rfl, fun hd => absurd hc hd⟩
  · exact ⟨fun hd => by simp [hc] at hd, fun _ hpc => absurd rfl hpc⟩
  · refine ⟨fun hd => by simp [hc] at hd, fun _ hpc => ?_⟩
    obtain ⟨hirb, hop⟩ := hu.pc.resolve_left hpc
    exact ⟨hc, hirb, i, hcur, ht, hop⟩

/-- The register a routine writes. -/
def writtenReg : Instr → Option RegCode
  | .aopr _ d _ _ | .aopi _ d _ _ | .loadr _ d _ _ | .load _ d _ _ => some d
  | .nop .. | .jmp .. | .b .. | .storr .. | .store .. | .clz .. | .clof .. | .clng .. => none

theorem writtenReg_eq_some_iff (i : Instr) (q : RegCode) : writtenReg i = some q ↔
    (∃ c r a, i = .aopr c q r a) ∨ (∃ c a m, i = .aopi c q a m) ∨
    (∃ c r a, i = .loadr c q r a) ∨ (∃ c a m, i = .load c q a m) := by
  cases i <;> simp [writtenReg]

/-- A routine leaves the registers, or writes one Word to its written register. -/
theorem RoutineEffect.gpr {i : Instr} {s u : State} (h : RoutineEffect i s u) :
    u.gpr = s.gpr ∨ ∃ d v, writtenReg i = some d ∧ u.gpr = s.gpr.set d.toNat v := by
  cases i with
  | nop | jmp | b => cases h; exact .inl rfl
  | aopr c d r a => obtain ⟨-, -, rfl⟩ := h; exact .inr ⟨d, _, rfl, rfl⟩
  | aopi c d a imm => obtain ⟨-, rfl⟩ := h; exact .inr ⟨d, _, rfl, rfl⟩
  | loadr c d r a => obtain ⟨-, -, w, -, rfl⟩ := h; exact .inr ⟨d, w, rfl, rfl⟩
  | load c d a imm => obtain ⟨-, w, -, rfl⟩ := h; exact .inr ⟨d, w, rfl, rfl⟩
  | storr c d r a => obtain ⟨-, -, -, rfl⟩ := h; exact .inl rfl
  | store c d a imm => obtain ⟨-, -, rfl⟩ := h; exact .inl rfl
  | clz | clof | clng => cases h

/-- A register a routine changes is its written register. -/
theorem RoutineEffect.writtenReg_of_reg_ne {i : Instr} {s u : State} {q : RegCode} (h : RoutineEffect i s u)
    (hq : u.reg q ≠ s.reg q) : writtenReg i = some q := by
  rcases h.gpr with hg | ⟨d, v, hd, hg⟩
  · exact absurd (by simp only [State.reg, hg]) hq
  · have hqd : q = d := by
      by_contra hne
      exact hq (by simp only [State.reg, hg, reg_set_other s.gpr v hne])
    rw [hqd, hd]

/-- Settles O45, by the cases of a step: only a routine that ran to its end writes a register. -/
theorem registersChangeOnlyAsDest : Obligations.RegistersChangeOnlyAsDest := by
  unfold Obligations.RegistersChangeOnlyAsDest
  intro s t q hi h hq
  rcases step_inv_cases hi h with
    ⟨-, w, -, rfl⟩ | ⟨-, w, -, rfl⟩ | ⟨-, d, -, rfl⟩ | ⟨-, d, -, -, rfl⟩ | ⟨hc, i, u, hcur, ht, hu, rfl⟩
  · exact absurd rfl hq
  · exact absurd rfl hq
  · exact absurd rfl hq
  · exact absurd rfl hq
  · exact ⟨hc, i, hcur, ht, (writtenReg_eq_some_iff i q).1 (hu.writtenReg_of_reg_ne hq)⟩

/-! ## Constant registers (10_state.md R22) -/

/-- A sequence of micro-operations with other constant registers in its state. -/
def Run.withConstRegs (consts : List Word) : Run → Run
  | .ok s => .ok (s.withConstRegs consts)
  | .raised k s => .raised k (s.withConstRegs consts)

/-- A fault with other constant registers in the state it carries. -/
def Fault.withConstRegs (consts : List Word) : Fault → Fault
  | .decodeError e t => .decodeError e (t.withConstRegs consts)
  | .unimplementedOpcode v t => .unimplementedOpcode v (t.withConstRegs consts)
  | .addressFault a t => .addressFault a (t.withConstRegs consts)
  | .fabricError e t => .fabricError e (t.withConstRegs consts)
  | .unwrittenRead a t => .unwrittenRead a (t.withConstRegs consts)
  | .alreadyFaulted t => .alreadyFaulted (t.withConstRegs consts)
  | .noCurrentInstruction t => .noCurrentInstruction (t.withConstRegs consts)

/-- An outcome with other constant registers in its state. -/
def outcomeWithConstRegs (consts : List Word) : Outcome → Outcome
  | .next t => .next (t.withConstRegs consts)
  | .fault f => .fault (f.withConstRegs consts)
  | .refused r => .refused r

@[simp] theorem Fault.withConstRegs_kind (consts : List Word) (f : Fault) : (f.withConstRegs consts).kind = f.kind := by
  cases f <;> rfl

@[simp] theorem Fault.withConstRegs_stopped (consts : List Word) (f : Fault) :
    (f.withConstRegs consts).stopped = f.stopped.withConstRegs consts := by
  cases f <;> rfl

theorem raiseFault_withConstRegs (consts : List Word) (k : FaultKind) (s : State) :
    raiseFault k (s.withConstRegs consts) = (raiseFault k s).withConstRegs consts := by
  cases k <;> rfl

/-! ### The parts of a micro-operation that names no constant register -/

/-- A state and fault with other constant registers in the state. -/
def pairWithConstRegs (consts : List Word) (p : State × Option FaultKind) : State × Option FaultKind :=
  (p.1.withConstRegs consts, p.2)

theorem exists_withConstRegs {r : BusAddr} (h : ∀ n, r ≠ .const n) (consts : List Word) (s : State) :
    r.exists (s.withConstRegs consts).config = r.exists s.config := by
  cases r with
  | const n => exact absurd rfl (h n)
  | _ => rfl

theorem readCell_withConstRegs {r : BusAddr} (h : ∀ n, r ≠ .const n) (consts : List Word) (s : State) :
    (s.withConstRegs consts).readCell r = s.readCell r := by
  cases r with
  | const n => exact absurd rfl (h n)
  | _ => rfl

theorem writeCell_withConstRegs (consts : List Word) (r : BusAddr) (v : Word) (s : State) :
    (s.withConstRegs consts).writeCell r v = (s.writeCell r v).withConstRegs consts := by
  cases r <;> rfl

theorem memWrite_withConstRegs (consts : List Word) (s : State) (a v : Word) :
    memWrite (s.withConstRegs consts) a v = (memWrite s a v).map (State.withConstRegs · consts) := by
  cases hb : backed s.config.regions a with
  | true => rw [memWrite_of_backed v hb, memWrite_of_backed v (by exact hb)]; rfl
  | false => rw [memWrite_of_unbacked v hb, memWrite_of_unbacked v (by exact hb)]; rfl

theorem busRead_withConstRegs (consts : List Word) (r : BusAddr) (s : State) :
    busRead r (s.withConstRegs consts) = pairWithConstRegs consts (busRead r s) := by
  have hm : memRead (s.withConstRegs consts) (s.withConstRegs consts).mar = memRead s s.mar := rfl
  unfold busRead
  rw [hm]
  split
  · cases memRead s s.mar <;> rfl
  · rfl

theorem busWrite_withConstRegs (consts : List Word) (r : BusAddr) (v : Word) (s : State) :
    busWrite r v (s.withConstRegs consts) = pairWithConstRegs consts (busWrite r v s) := by
  simp only [busWrite, writeCell_withConstRegs, memWrite_withConstRegs]
  split
  · rw [show ((s.writeCell r v).withConstRegs consts).mar = (s.writeCell r v).mar from rfl]
    cases memWrite (s.writeCell r v) (s.writeCell r v).mar v <;> rfl
  · rfl

theorem feeds_withConstRegs {src : Option BusAddr} (h : ∀ n, src ≠ some (.const n)) (consts : List Word) (s : State) :
    feedA src (s.withConstRegs consts) = pairWithConstRegs consts (feedA src s) ∧
    feedB src (s.withConstRegs consts) = pairWithConstRegs consts (feedB src s) := by
  cases src with
  | none => exact ⟨rfl, rfl⟩
  | some r =>
    have hr : ∀ n, r ≠ .const n := fun n e => h n (by rw [e])
    simp only [feedA, feedB, busRead_withConstRegs, pairWithConstRegs, readCell_withConstRegs hr]
    exact ⟨rfl, rfl⟩

theorem commitFlags_withConstRegs (consts : List Word) (s : State) (f : Flags) :
    (s.withConstRegs consts).commitFlags f = (s.commitFlags f).withConstRegs consts := by
  cases h : s.fe with
  | true => rw [commitFlags_on h, commitFlags_on (by exact h)]; rfl
  | false => rw [commitFlags_off h, commitFlags_off (by exact h)]

theorem writebackUop_withConstRegs (consts : List Word) (dst : BusAddr) (s : State) :
    writebackUop dst (s.withConstRegs consts) = pairWithConstRegs consts (writebackUop dst s) := by
  simp only [writebackUop, busWrite_withConstRegs, pairWithConstRegs, commitFlags_withConstRegs]
  rfl

/-- No constant register influences what this sequence of micro-operations does. -/
def ConstRegBlind (f : State → Run) : Prop :=
  ∀ (consts : List Word) (s : State), f (s.withConstRegs consts) = (f s).withConstRegs consts

theorem commitUop_withConstRegs {srcA srcB : Option BusAddr} (hA : ∀ n, srcA ≠ some (.const n))
    (hB : ∀ n, srcB ≠ some (.const n)) (op : Microcode) (dst : BusAddr) (consts : List Word) (s : State) :
    commitUop srcA srcB op dst (s.withConstRegs consts) = pairWithConstRegs consts (commitUop srcA srcB op dst s) := by
  have hlatch : latchUop srcA srcB op dst (s.withConstRegs consts)
      = pairWithConstRegs consts (latchUop srcA srcB op dst s) := by
    have hfeedA := (feeds_withConstRegs hA consts s).1
    have hfeedB := (feeds_withConstRegs hB consts (feedA srcA s).1).2
    simp only [latchUop, hfeedA, pairWithConstRegs, hfeedB]
    rfl
  simp only [commitUop, hlatch, pairWithConstRegs, writebackUop_withConstRegs]

theorem resolveUop_withConstRegs {srcA srcB : Option BusAddr} {dst : BusAddr} (hA : ∀ n, srcA ≠ some (.const n))
    (hB : ∀ n, srcB ≠ some (.const n)) (hdst : ∀ n, dst ≠ .const n) (consts : List Word) (s : State) :
    resolveUop (s.withConstRegs consts).config srcA srcB dst = resolveUop s.config srcA srcB dst := by
  have hfeed : ∀ {src : Option BusAddr}, (∀ n, src ≠ some (.const n)) →
      feedNamed (s.withConstRegs consts).config src = feedNamed s.config src := by
    rintro (_ | r) h
    · rfl
    · exact exists_withConstRegs (fun n e => h n (by rw [e])) consts s
  simp only [resolveUop, hfeed hA, hfeed hB, exists_withConstRegs hdst]

/-- A micro-operation that names no constant register; the operands of each one the machine issues show it. -/
theorem uop_constRegBlind {srcA srcB : Option BusAddr} {op : Microcode} {dst : BusAddr}
    (hA : ∀ n, srcA ≠ some (.const n) := by nofun) (hB : ∀ n, srcB ≠ some (.const n) := by nofun)
    (hdst : ∀ n, dst ≠ .const n := by nofun) : ConstRegBlind (uop srcA srcB op dst) := by
  intro consts s
  simp only [uop, resolveUop_withConstRegs hA hB hdst, commitUop_withConstRegs hA hB]
  cases resolveUop s.config srcA srcB dst with
  | some e => rfl
  | none => rcases commitUop srcA srcB op dst s with ⟨t, _ | k⟩ <;> rfl

/-! ### The pulses -/

theorem ConstRegBlind.andThen {f g : State → Run} (hf : ConstRegBlind f) (hg : ConstRegBlind g) :
    ConstRegBlind fun s => (f s).andThen g := by
  intro consts s
  simp only [hf consts s]
  cases f s with
  | ok t => exact hg consts t
  | raised k t => rfl

/-- The end of a pulse that changes no parameter. -/
theorem ConstRegBlind.finish {f : State → Run} (hf : ConstRegBlind f) {g : State → State} {consts : List Word}
    (hg : ∀ t : State, g (t.withConstRegs consts) = (g t).withConstRegs consts) (s : State) :
    (f (s.withConstRegs consts)).finish g = outcomeWithConstRegs consts ((f s).finish g) := by
  rw [hf consts s]
  cases f s with
  | ok t => exact congrArg Host.Outcome.next (hg t)
  | raised k t => exact congrArg Host.Outcome.fault (raiseFault_withConstRegs consts k t)

theorem decodeCurrent_constRegBlind : ConstRegBlind decodeCurrent := by
  intro consts s
  have hd : decode (s.withConstRegs consts).config (s.withConstRegs consts).ira (s.withConstRegs consts).irb
      = decode s.config s.ira s.irb := rfl
  simp only [decodeCurrent, hd]
  cases decode s.config s.ira s.irb <;> rfl

/-- The micro-operation of AOPR and AOPI, with `fe` set before it. -/
theorem aluRoutine_constRegBlind (d : RegCode) {srcB : BusAddr} (hB : ∀ n, srcB ≠ .const n) (alu : Microcode) :
    ConstRegBlind (aluRoutine d srcB alu) := by
  have huop : ConstRegBlind (uop (some (.gp d)) (some srcB) alu (.gp d)) :=
    uop_constRegBlind (hB := fun n e => hB n (Option.some.inj e))
  exact fun consts s => huop consts { s with fe := true }

theorem routineOf_constRegBlind (i : Instr) (s : State) : ConstRegBlind (routineOf i s) := by
  have hjump : ConstRegBlind jumpRoutine := uop_constRegBlind
  have haddrReg (r : RegCode) : ConstRegBlind (addressFromReg r) := uop_constRegBlind
  have haddrImm : ConstRegBlind addressFromImm := uop_constRegBlind
  have hload (d : RegCode) : ConstRegBlind (loadIntoReg d) := uop_constRegBlind
  have hstore (d : RegCode) : ConstRegBlind (storeFromReg d) := uop_constRegBlind
  cases i with
  | nop => exact fun _ _ => rfl
  | jmp | b => exact hjump
  | aopr c d r a => exact aluRoutine_constRegBlind d (by nofun) a
  | aopi c d a => exact aluRoutine_constRegBlind d (by nofun) a
  | loadr c d r => exact (haddrReg r).andThen (hload d)
  | storr c d r => exact (haddrReg r).andThen (hstore d)
  | load c d => exact haddrImm.andThen (hload d)
  | store c d => exact haddrImm.andThen (hstore d)
  | clz | clof | clng => exact fun _ _ => rfl

theorem executePhase_withConstRegs {f : State → Run} (hf : ConstRegBlind f) (c : Cond) (consts : List Word)
    (s : State) :
    executePhase c f (s.withConstRegs consts) = outcomeWithConstRegs consts (executePhase c f s) := by
  have hcond : condHolds c (s.withConstRegs consts).flags = condHolds c s.flags := rfl
  simp only [executePhase, hcond]
  cases condHolds c s.flags with
  | reserved => rfl
  | holds yes =>
    cases yes with
    | false => rfl
    | true => exact hf.finish (fun _ => rfl) s

theorem executePulse_withConstRegs (consts : List Word) (s : State) :
    executePulse (s.withConstRegs consts) = outcomeWithConstRegs consts (executePulse s) := by
  have hcur : (s.withConstRegs consts).cur = s.cur := rfl
  simp only [executePulse, hcur]
  rcases s.cur with _ | i | e
  · rfl
  · have hroutine : routineOf i (s.withConstRegs consts) = routineOf i s := by cases i <;> rfl
    simp only [exec_eq, hroutine]
    exact executePhase_withConstRegs (routineOf_constRegBlind i s) i.cond consts s
  · exact executePhase_withConstRegs (fun _ _ => rfl) e.cond consts s

/-- A step with other constant registers is the same step, with those constant registers in its outcome. -/
theorem step_withConstRegs (consts : List Word) (s : State) :
    step (s.withConstRegs consts) = outcomeWithConstRegs consts (step s) := by
  have hfault : (s.withConstRegs consts).fault = s.fault := rfl
  have hcu : (s.withConstRegs consts).cu = s.cu := rfl
  have hmar (op : Microcode) : ConstRegBlind (uop (some .pc) none op .mar) := uop_constRegBlind
  have hira : ConstRegBlind (uop none (some .mdr) transferB .ira) := uop_constRegBlind
  have hirb : ConstRegBlind (uop none (some .mdr) transferB .irb) := uop_constRegBlind
  have hpc : ConstRegBlind (uop (some .pc) none aIncrement .pc) := uop_constRegBlind
  simp only [step, hfault, hcu]
  cases s.fault with
  | some r => rfl
  | none =>
    cases s.cu with
    | fetch1 => exact ((hmar transferA).andThen hira).finish (fun _ => rfl) s
    | fetch2 => exact ((hmar aIncrement).andThen hirb).finish (fun _ => rfl) s
    | decode => exact ((hpc.andThen hpc).andThen decodeCurrent_constRegBlind).finish (fun _ => rfl) s
    | execute => exact executePulse_withConstRegs consts s

/-- Settles O49: both halves are the equation of the two steps. -/
theorem constantRegistersAreUnobservable : Obligations.ConstantRegistersAreUnobservable := by
  unfold Obligations.ConstantRegistersAreUnobservable
  intro s consts
  refine ⟨fun t h => ?_, fun f h => ⟨f.withConstRegs consts, ?_, by simp, by simp⟩⟩
  · rw [step_withConstRegs, h]; rfl
  · rw [step_withConstRegs, h]; rfl

end Sys2Proof.Machine
end

section
/-! SUPPORT. Which region and backing word hold an address, what a micro-operation does to memory through MDR, that
memory and console events change only in STORR and STORE, and that a fetch sees the store before it (20_memory.md). -/

namespace Sys2Proof.Machine

open Sys2Proof

/-! ## Translation and the backing word count (20_memory.md R38, R39) -/

theorem regionContains_iff (r : Region) (a : Word) : regionContains r a = true ↔ r.first ≤ a ∧ a ≤ r.last := by
  simp [regionContains]

/-- Translation is the library's first-match search, with the offset from the region's start. -/
theorem translateAddr_eq_find? (rs : List Region) (a : Word) :
    translateAddr rs a = (rs.find? (regionContains · a)).map fun r => (r, a - r.first) := by
  induction rs with
  | nil => rfl
  | cons r rs ih => cases hc : regionContains r a <;> simp [translateAddr, hc, ih]

theorem translateAddr_eq_none_iff (rs : List Region) (a : Word) :
    translateAddr rs a = none ↔ ∀ r ∈ rs, ¬ (r.first ≤ a ∧ a ≤ r.last) := by
  simp only [translateAddr_eq_find?, Option.map_eq_none_iff, List.find?_eq_none, regionContains_iff]

theorem translateAddr_eq_some_iff (rs : List Region) (a rel : Word) (r : Region) :
    translateAddr rs a = some (r, rel) ↔
      ∃ before after, rs = before ++ r :: after ∧ (∀ q ∈ before, ¬ (q.first ≤ a ∧ a ≤ q.last)) ∧
        r.first ≤ a ∧ a ≤ r.last ∧ rel = a - r.first := by
  have hfind : translateAddr rs a = some (r, rel) ↔
      rs.find? (regionContains · a) = some r ∧ rel = a - r.first := by
    rw [translateAddr_eq_find?, Option.map_eq_some_iff]
    constructor
    · rintro ⟨q, hq, ⟨⟩⟩; exact ⟨hq, rfl⟩
    · rintro ⟨hr, rfl⟩; exact ⟨r, hr, rfl⟩
  simp only [hfind, List.find?_eq_some_iff_append, Bool.not_eq_true', ← Bool.not_eq_true, regionContains_iff]
  constructor
  · rintro ⟨⟨⟨hlo, hhi⟩, before, after, hrs, hb⟩, hrel⟩; exact ⟨before, after, hrs, hb, hlo, hhi, hrel⟩
  · rintro ⟨before, after, hrs, hb, hlo, hhi, hrel⟩; exact ⟨⟨⟨hlo, hhi⟩, before, after, hrs, hb⟩, hrel⟩

/-- An address in no region is in no backing memory. -/
theorem backed_of_translateAddr_none {rs : List Region} {a : Word} (h : translateAddr rs a = none) :
    backed rs a = false := by
  simp [backed, resolveAddr, h]

/-- An address of a region is in its backing memory exactly below the word count. -/
theorem backed_of_translateAddr_some {rs : List Region} {a rel : Word} {r : Region}
    (h : translateAddr rs a = some (r, rel)) : backed rs a = decide (rel.toNat < r.size) := by
  by_cases hs : r.size ≤ rel.toNat
  · simp [backed, resolveAddr, h, hs]
  · simp [backed, resolveAddr, h, hs, Nat.lt_of_not_le hs]

/-- Where no backing word holds the address, both accesses are its AddressFault. -/
theorem access_of_unbacked {s : State} {a : Word} (h : backed s.config.regions a = false) :
    memRead s a = .error (.addressFault a) ∧ ∀ v, memWrite s a v = .error (.addressFault a) := by
  refine ⟨?_, fun v => memWrite_of_unbacked v h⟩
  rcases memRead_cases s a with ⟨hm, -⟩ | ⟨-, hb, -⟩ | ⟨w, -, hb, -⟩
  · exact hm
  · simp [hb] at h
  · simp [hb] at h

/-- Where a backing word holds the address, a read is no AddressFault and a write succeeds. -/
theorem access_of_backed {s : State} {a : Word} (h : backed s.config.regions a = true) :
    memRead s a ≠ .error (.addressFault a) ∧ ∀ v, ∃ t, memWrite s a v = .ok t := by
  refine ⟨?_, fun v => ⟨_, memWrite_of_backed v h⟩⟩
  rcases memRead_cases s a with ⟨-, hb⟩ | ⟨hm, -⟩ | ⟨w, hm, -⟩
  · simp [hb] at h
  · simp [hm]
  · simp [hm]

/-- Settles O10: translation is a first-match search, and an address it does not find is not backed. -/
theorem firstContainingRegionWins : Obligations.FirstContainingRegionWins := by
  unfold Obligations.FirstContainingRegionWins
  exact ⟨translateAddr_eq_some_iff, fun s a h =>
    access_of_unbacked (backed_of_translateAddr_none ((translateAddr_eq_none_iff _ a).2 h))⟩

/-- Settles O11: inside a region, being backed is being below its word count. -/
theorem backingSizeBoundsTheAccess : Obligations.BackingSizeBoundsTheAccess := by
  unfold Obligations.BackingSizeBoundsTheAccess
  intro s a rel r ht
  have hb := backed_of_translateAddr_some ht
  exact ⟨fun hout => access_of_unbacked (by simp [hb, hout]), fun hin => access_of_backed (by simp [hb, hin])⟩

/-! ## MDR in a micro-operation (10_state.md R21, 20_memory.md R45) -/

/-- A bus read that answers leaves the Word read at MAR in MDR when MDR is its source, and else nothing. -/
theorem busRead_ok {r : BusAddr} {s : State} (h : (busRead r s).2 = none) :
    ∃ v, (busRead r s).1 = { s with mdr := v } ∧ (r = .mdr → memRead s s.mar = .ok v) ∧ (r ≠ .mdr → v = s.mdr) := by
  by_cases hr : r = .mdr
  · subst hr
    cases hm : memRead s s.mar with
    | error e => simp [busRead, BusAddr.variants, hm] at h
    | ok w => exact ⟨w, by simp [busRead, BusAddr.variants, hm], fun _ => rfl, fun hne => absurd rfl hne⟩
  · refine ⟨s.mdr, ?_, fun he => absurd he hr, fun _ => rfl⟩
    cases r with
    | mdr => exact absurd rfl hr
    | _ => rfl

/-- An A-feed selection that answers latches the Word read at MAR when its source is MDR, and else keeps MDR. -/
theorem feedA_ok {src : Option BusAddr} {s : State} (h : (feedA src s).2 = none) :
    ∃ v x r, (feedA src s).1 = { s with mdr := v, aluA := x, selA := r } ∧
      (src = some .mdr → memRead s s.mar = .ok x) ∧ (src ≠ some .mdr → v = s.mdr) := by
  cases src with
  | none => exact ⟨s.mdr, s.aluA, s.selA, rfl, nofun, fun _ => rfl⟩
  | some r =>
    obtain ⟨v, hv, hread, hkeep⟩ := busRead_ok (r := r) (s := s) h
    refine ⟨v, State.readCell { s with mdr := v } r, r, by simp only [feedA, hv], ?_,
      fun hne => hkeep fun e => hne (congrArg some e)⟩
    rintro ⟨⟩
    exact hread rfl

/-- The same for a B-feed selection. -/
theorem feedB_ok {src : Option BusAddr} {s : State} (h : (feedB src s).2 = none) :
    ∃ v x r, (feedB src s).1 = { s with mdr := v, aluB := x, selB := r } ∧
      (src = some .mdr → memRead s s.mar = .ok x) ∧ (src ≠ some .mdr → v = s.mdr) := by
  cases src with
  | none => exact ⟨s.mdr, s.aluB, s.selB, rfl, nofun, fun _ => rfl⟩
  | some r =>
    obtain ⟨v, hv, hread, hkeep⟩ := busRead_ok (r := r) (s := s) h
    refine ⟨v, State.readCell { s with mdr := v } r, r, by simp only [feedB, hv], ?_,
      fun hne => hkeep fun e => hne (congrArg some e)⟩
    rintro ⟨⟩
    exact hread rfl

/-- The first half of a micro-operation, when its reads answer: a source MDR supplies the Word read at MAR, and MDR is
kept where no source is MDR. -/
theorem latchUop_ok {srcA srcB : Option BusAddr} {op : Microcode} {dst : BusAddr} {s : State}
    (h : (latchUop srcA srcB op dst s).2 = none) :
    ∃ v x y r q, (latchUop srcA srcB op dst s).1
        = { s with mdr := v, aluA := x, aluB := y, selA := r, selB := q, aluOp := op, selW := dst } ∧
      (srcA = some .mdr → memRead s s.mar = .ok x) ∧ (srcB = some .mdr → memRead s s.mar = .ok y) ∧
      (srcA ≠ some .mdr → srcB ≠ some .mdr → v = s.mdr) := by
  obtain ⟨hfa, hfb⟩ := Option.or_eq_none_iff.1 h
  obtain ⟨va, x, r, ha, hreadA, hkeepA⟩ := feedA_ok hfa
  obtain ⟨v, y, q, hb, hreadB, hkeepB⟩ := feedB_ok hfb
  rw [ha] at hb hreadB hkeepB
  exact ⟨v, x, y, r, q, by simp only [latchUop, ha, hb], hreadA, hreadB, fun hA hB => (hkeepB hB).trans (hkeepA hA)⟩

/-- A micro-operation that completes ran both halves without a fault. -/
theorem uop_eq_ok {srcA srcB : Option BusAddr} {op : Microcode} {dst : BusAddr} {s t : State}
    (h : uop srcA srcB op dst s = .ok t) :
    (latchUop srcA srcB op dst s).2 = none ∧ (writebackUop dst (latchUop srcA srcB op dst s).1).2 = none ∧
      t = (writebackUop dst (latchUop srcA srcB op dst s).1).1 := by
  rcases uop_cases srcA srcB op dst s with ⟨e, -, hu⟩ | ⟨-, hc, hu⟩ | ⟨k, -, -, hu⟩ <;> rw [hu] at h <;> cases h
  obtain ⟨hl, hw⟩ := Option.or_eq_none_iff.1 hc
  exact ⟨hl, hw, rfl⟩

/-- What the second half does to memory: nothing but for MDR, which is written to memory at MAR too. The operand
latches stay. -/
theorem writebackUop_memory {dst : BusAddr} {s : State} (h : (writebackUop dst s).2 = none) :
    (writebackUop dst s).1.aluA = s.aluA ∧ (writebackUop dst s).1.aluB = s.aluB ∧
    (dst ≠ .mdr → (writebackUop dst s).1.mem = s.mem ∧ (writebackUop dst s).1.consoleOut = s.consoleOut ∧
      (writebackUop dst s).1.mdr = s.mdr) ∧
    (dst = .mdr → (writebackUop dst s).1.mar = s.mar ∧
      (writebackUop dst s).1.mem = s.mem.write s.mar.toNat (writebackUop dst s).1.mdr ∧
      (writebackUop dst s).1.consoleOut
        = s.consoleOut ++ storeEvents s.config.regions s.mar (writebackUop dst s).1.mdr) := by
  rcases writebackUop_cases dst s with ⟨hd, hw⟩ | ⟨rfl, -, hw⟩ | ⟨-, -, hw⟩
  · have hmdr (v : Word) : (s.writeCell dst v).mdr = s.mdr := by
      cases dst with
      | mdr => exact absurd rfl hd
      | _ => rfl
    simp [hw, hd, hmdr]
  · simp [hw]
  · simp [hw] at h

/-- Settles O13: the first half reads through MDR (`latchUop_ok`), the second writes through it
(`writebackUop_memory`). -/
theorem memoryIsReachedThroughMdr : Obligations.MemoryIsReachedThroughMdr := by
  unfold Obligations.MemoryIsReachedThroughMdr
  intro srcA srcB op dst s t h
  obtain ⟨hl, hw, rfl⟩ := uop_eq_ok h
  obtain ⟨hA, hB, hother, hmdr⟩ := writebackUop_memory hw
  obtain ⟨v, x, y, r, q, hlatch, hreadA, hreadB, hkeep⟩ := latchUop_ok hl
  rw [hA, hB]
  simp only [hlatch] at hother hmdr ⊢
  refine ⟨fun hd => ?_, hmdr, hreadA, hreadB, fun hsA hsB hd => ?_⟩
  · obtain ⟨hmem, hout, -⟩ := hother hd
    exact ⟨hmem, hout⟩
  · obtain ⟨-, -, hsame⟩ := hother hd
    exact hsame.trans (hkeep hsA hsB)

/-! ## Stores (44_memory_instructions.md R136, R138, 60_exceptions.md R160) -/

/-- `i` is the store of GPd, and `a` the address it takes from its operand: a register, or IRB. -/
def IsStoreTo (i : Instr) (s : State) (d : RegCode) (a : Word) : Prop :=
  (∃ c r u, i = .storr c d r u ∧ a = s.reg r) ∨ (∃ c u m, i = .store c d u m ∧ a = s.irb)

/-- A routine leaves memory and console events, or is a store's and writes one Word at MAR. -/
theorem RoutineEffect.memory {i : Instr} {s u : State} (h : RoutineEffect i s u) :
    (u.mem = s.mem ∧ u.consoleOut = s.consoleOut) ∨
    ∃ d, IsStoreTo i s d u.mar ∧ u.mem = s.mem.write u.mar.toNat (s.reg d) ∧
      u.consoleOut = s.consoleOut ++ storeEvents s.config.regions u.mar (s.reg d) := by
  cases i with
  | nop | jmp | b => cases h; exact .inl ⟨rfl, rfl⟩
  | aopr c d r a => obtain ⟨-, -, rfl⟩ := h; exact .inl ⟨rfl, rfl⟩
  | aopi c d a imm => obtain ⟨-, rfl⟩ := h; exact .inl ⟨rfl, rfl⟩
  | loadr c d r a => obtain ⟨-, -, w, -, rfl⟩ := h; exact .inl ⟨rfl, rfl⟩
  | load c d a imm => obtain ⟨-, w, -, rfl⟩ := h; exact .inl ⟨rfl, rfl⟩
  | storr c d r a => obtain ⟨-, -, -, rfl⟩ := h; exact .inr ⟨d, .inl ⟨c, r, a, rfl, rfl⟩, rfl, rfl⟩
  | store c d a imm => obtain ⟨-, -, rfl⟩ := h; exact .inr ⟨d, .inr ⟨c, a, imm, rfl, rfl⟩, rfl, rfl⟩
  | clz | clof | clng => cases h

/-- Settles O46, by the cases of a step: only a store's routine reaches memory (`RoutineEffect.memory`), and IRB is the
address operand of STORE (`current_operand`). -/
theorem memoryAndConsoleChangeOnlyInStores : Obligations.MemoryAndConsoleChangeOnlyInStores := by
  unfold Obligations.MemoryAndConsoleChangeOnlyInStores
  intro s t hi h
  rcases step_inv_cases hi h with
    ⟨-, w, -, rfl⟩ | ⟨-, w, -, rfl⟩ | ⟨-, d, -, rfl⟩ | ⟨-, d, -, -, rfl⟩ | ⟨hc, i, u, hcur, ht, hu, rfl⟩
  · exact .inl ⟨rfl, rfl⟩
  · exact .inl ⟨rfl, rfl⟩
  · exact .inl ⟨rfl, rfl⟩
  · exact .inl ⟨rfl, rfl⟩
  · rcases hu.memory with hkeep | ⟨d, hstore, hmem, hout⟩
    · exact .inl hkeep
    · refine .inr ⟨hc, i, d, hcur, ht, ?_, hmem, hout⟩
      rcases hstore with hreg | ⟨c, a, m, rfl, hmar⟩
      · exact .inl hreg
      · exact .inr ⟨c, a, m, rfl, hmar.trans ((current_operand hi hc hcur).1 m rfl)⟩

/-! ## The fetch after a store (20_memory.md R53, 70_reset_and_hazards.md R176) -/

/-- A STORE whose condition holds completes at a backed address, with the whole next state (R138). -/
theorem exec_store_of_backed {c : Cond} {d : RegCode} {alu : Microcode} {imm : Word} {s : State} (hf : s.fe = false)
    (hc : CondTrue c s) (hd : s.config.isGpr d = true) (hb : backed s.config.regions s.irb = true) :
    exec (.store c d alu imm) s = .next { s with
      mem := s.mem.write s.irb.toNat (s.reg d)
      consoleOut := s.consoleOut ++ storeEvents s.config.regions s.irb (s.reg d)
      mar := s.irb, mdr := s.reg d, aluA := s.reg d, selA := .gp d, aluB := s.irb, selB := .irb
      aluOp := transferA, selW := .void, fe := false, cu := .fetch1 } := by
  rw [exec_eq, executePhase_true (by exact hc)]
  simp only [routineOf, addressFromImm_eq hf, Run.andThen_ok, storeFromReg, regOperand]
  rw [uop_gp_to_mdr (by exact hf) (by exact hd) (by exact hb)]
  rfl

/-- A step in Fetch1 where the Word at PC can be read, with the whole next state (R124). -/
theorem step_fetch1_of_read {s : State} {w : Word} (hn : s.fault = none) (hf : s.fe = false) (hc : s.cu = .fetch1)
    (hm : memRead s s.pc = .ok w) :
    step s = .next { s with
      mar := s.pc, mdr := w, ira := w, cu := .fetch2
      aluA := s.pc, selA := .pc, aluB := w, selB := .mdr, aluOp := transferB, selW := .void } := by
  simp only [step, hn, hc, fetch1Pulse, uop_pc_to_mar hf, Run.andThen_ok]
  rw [uop_mdr_to (w := w) (by exact hf) rfl (by simp) hm]
  rfl

/-- Settles O48: the STORE leaves its Word at PC, where the Fetch1 that follows reads it. -/
theorem fetchSeesTheStore : Obligations.FetchSeesTheStore := by
  unfold Obligations.FetchSeesTheStore
  rintro c d alu imm s hn hf hc hd rfl hpc hb
  refine ⟨_, _, exec_store_of_backed hf hc hd hb, rfl, rfl, rfl, step_fetch1_of_read hn rfl rfl ?_, rfl⟩
  rw [memRead_ok_iff, hpc]
  exact ⟨hb, Memory.read_write_same ..⟩

end Sys2Proof.Machine
end

section
/-! SUPPORT. Everything decode can answer, errors included, and the round trips of the codec (30_encoding.md R61 to R73). -/

namespace Sys2Proof

/-! ## The two lookups (30_encoding.md R61, R62, R64) -/

theorem lookupOpcode_eq_none_iff (k : Config) (v : OpValue) :
    lookupOpcode k v = none ↔ (∀ op, k.opcodes.code op ≠ v) ∧ ∀ e ∈ k.extra, e.1 ≠ v := by
  constructor
  · intro h
    unfold lookupOpcode at h
    split at h
    · cases h
    · rename_i hcore
      split at h
      · cases h
      · rename_i hextra
        exact ⟨fun op => by simpa using List.find?_eq_none.1 hcore op op.mem_all,
          fun e he => by simpa using List.find?_eq_none.1 hextra e he⟩
  · rintro ⟨hcore, hextra⟩
    cases hr : lookupOpcode k v with
    | none => rfl
    | some r =>
      rcases lookupOpcode_some hr with ⟨op, -, hop⟩ | ⟨t, -, ht⟩
      · exact absurd hop (hcore op)
      · exact absurd rfl (hextra _ ht)

theorem lookupCond_eq_none_iff (k : Config) (v : CondValue) :
    lookupCond k v = none ↔ ∀ c, k.conds.code c ≠ v := by
  rw [lookupCond, List.find?_eq_none]
  exact ⟨fun h c => by simpa using h c c.mem_all, fun h c _ => by simpa using h c⟩

/-- The value an opcode reference stands for. -/
def OpcodeRef.value (k : Config) : OpcodeRef → OpValue
  | .core op => k.opcodes.code op
  | .extra v _ => v

theorem value_of_lookupOpcode {k : Config} {v : OpValue} {r : OpcodeRef} (h : lookupOpcode k v = some r) :
    r.value k = v := by
  rcases lookupOpcode_some h with ⟨op, rfl, hop⟩ | ⟨t, rfl, -⟩
  · exact hop
  · rfl

/-! ## Everything decode can answer (30_encoding.md R70) -/

/-- With both lookups found, the registers are checked, and the reserved bits after them. -/
theorem decode_of_lookups {k : Config} {w0 w1 : Word} {r : OpcodeRef} {c : Cond}
    (hr : lookupOpcode k (opField w0) = some r) (hc : lookupCond k (condField w0) = some c) :
    decode k w0 w1 = if (buildInstr r c w0 w1).wf k = false then .error .unknownRegister
      else if reservedSet r.type w0 w1 = true ∧ k.reservedBits = .fault then .error .reservedBitsSet
      else .ok (buildInstr r c w0 w1) := by
  simp only [decode, hr, hc]

/-- The outcomes of decode: a failed lookup of the opcode, one of the condition, or neither. -/
theorem decode_cases (k : Config) (w0 w1 : Word) :
    (lookupOpcode k (opField w0) = none ∧ decode k w0 w1 = .error .unknownOpcode) ∨
    (∃ r, lookupOpcode k (opField w0) = some r ∧ lookupCond k (condField w0) = none ∧
      decode k w0 w1 = .error .unknownCondition) ∨
    ∃ r c, lookupOpcode k (opField w0) = some r ∧ lookupCond k (condField w0) = some c ∧
      (decode k w0 w1 = .error .unknownRegister ∨ decode k w0 w1 = .error .reservedBitsSet ∨
        decode k w0 w1 = .ok (buildInstr r c w0 w1)) := by
  cases hr : lookupOpcode k (opField w0) with
  | none => exact .inl ⟨rfl, by simp only [decode, hr]⟩
  | some r =>
    cases hc : lookupCond k (condField w0) with
    | none => exact .inr (.inl ⟨r, rfl, rfl, by simp only [decode, hr, hc]⟩)
    | some c =>
      refine .inr (.inr ⟨r, c, rfl, rfl, ?_⟩)
      rw [decode_of_lookups hr hc]
      split_ifs <;> simp

theorem decode_eq_unknownOpcode_iff (k : Config) (w0 w1 : Word) :
    decode k w0 w1 = .error .unknownOpcode ↔ lookupOpcode k (opField w0) = none := by
  rcases decode_cases k w0 w1 with ⟨hr, hd⟩ | ⟨r, hr, -, hd⟩ | ⟨r, c, hr, -, hd | hd | hd⟩ <;> simp [hr, hd]

theorem decode_eq_unknownCondition_iff (k : Config) (w0 w1 : Word) :
    decode k w0 w1 = .error .unknownCondition ↔
      lookupOpcode k (opField w0) ≠ none ∧ lookupCond k (condField w0) = none := by
  rcases decode_cases k w0 w1 with ⟨hr, hd⟩ | ⟨r, hr, hc, hd⟩ | ⟨r, c, -, hc, hd | hd | hd⟩
  · simp [hr, hd]
  · simp [hr, hc, hd]
  all_goals simp [hc, hd]

/-- ReservedCondition is raised by Execute alone (42_control_unit.md R129). -/
theorem decode_ne_reservedCondition (k : Config) (w0 w1 : Word) : decode k w0 w1 ≠ .error .reservedCondition := by
  rcases decode_cases k w0 w1 with ⟨-, hd⟩ | ⟨r, -, -, hd⟩ | ⟨r, c, -, -, hd | hd | hd⟩ <;> simp [hd]

/-- Settles O2: the two errors are the two failed lookups. -/
theorem decodeErrorsNameTheirField : Obligations.DecodeErrorsNameTheirField := by
  unfold Obligations.DecodeErrorsNameTheirField
  intro k _ w0 w1
  refine ⟨?_, ?_, decode_ne_reservedCondition k w0 w1⟩
  · rw [decode_eq_unknownOpcode_iff, lookupOpcode_eq_none_iff]
  · rw [decode_eq_unknownCondition_iff, lookupCond_eq_none_iff, ne_eq, lookupOpcode_eq_none_iff]
    refine and_congr_left' ?_
    simp only [not_and_or, not_forall, not_not, exists_prop]

/-! ## Decode of encode (30_encoding.md R71 to R73) -/

/-- With both lookups found and the reserved bits zero, only the register checks are left to decide. -/
theorem decode_of_reserved_zero {k : Config} {w0 w1 : Word} {r : OpcodeRef} {c : Cond}
    (hr : lookupOpcode k (opField w0) = some r) (hc : lookupCond k (condField w0) = some c)
    (hres : reservedSet r.type w0 w1 = false) :
    decode k w0 w1 = if (buildInstr r c w0 w1).wf k then .ok (buildInstr r c w0 w1) else .error .unknownRegister := by
  rw [decode_of_lookups hr hc, hres]
  cases (buildInstr r c w0 w1).wf k <;> simp

theorem decode_encode {k : Config} (hk : k.wf = true) (i : Instr) :
    decode k (encode k i).1 (encode k i).2 = if i.wf k then .ok (.core i) else .error .unknownRegister := by
  obtain ⟨hop, hcond⟩ := head_encode k i
  have hr : lookupOpcode k (opField (encode k i).1) = some (.core i.opcode) := by rw [hop, lookupOpcode_code hk]
  have hc : lookupCond k (condField (encode k i).1) = some i.cond := by rw [hcond, lookupCond_code hk]
  rw [decode_of_reserved_zero hr hc (reservedSet_encode k i), buildInstr_encode]
  rfl

theorem decode_encodeExtra {k : Config} (hk : k.wf = true) {e : ExtraInstr} (he : e.wf k = true) :
    decode k (encodeExtra k e).1 (encodeExtra k e).2 = .ok (.extra e) := by
  obtain ⟨hop, hcond⟩ := head_encodeExtra k e
  have hr : lookupOpcode k (opField (encodeExtra k e).1) = some (.extra e.value e.type) := by
    rw [hop, lookupOpcode_extra hk (List.contains_iff_mem.1 he)]
  have hc : lookupCond k (condField (encodeExtra k e).1) = some e.cond := by rw [hcond, lookupCond_code hk]
  rw [decode_of_reserved_zero hr hc (reservedSet_encodeExtra k e), buildInstr_encodeExtra]
  exact if_pos he

theorem decode_encodeDecoded {k : Config} (hk : k.wf = true) {d : Decoded} (hd : d.wf k = true) :
    decode k (encodeDecoded k d).1 (encodeDecoded k d).2 = .ok d := by
  cases d with
  | core i => exact (decode_encode hk i).trans (if_pos hd)
  | extra e => exact decode_encodeExtra hk hd

/-- Settles O3, by `decode_encode`. -/
theorem registerFieldsCheckedWhereUsed : Obligations.RegisterFieldsCheckedWhereUsed := by
  unfold Obligations.RegisterFieldsCheckedWhereUsed
  intro k hk i
  exact decode_encode hk i

/-! ## Encode of decode (30_encoding.md R67, R73) -/

/-- The Words of a format with opcode value `v`, condition value `c`, and the other fields of `w0` and `w1`. -/
def encodeFields (t : InstrType) (v : OpValue) (c : CondValue) (w0 w1 : Word) : Word × Word :=
  match t with
  | .register => encodeR v c (destField w0) (srcField w0) (aluFieldR w0)
  | .immediate => encodeI v c (destField w0) (aluFieldI w0) w1
  | .jump => encodeJ v c w1

theorem encodeDecoded_buildInstr (k : Config) (r : OpcodeRef) (c : Cond) (w0 w1 : Word) :
    encodeDecoded k (buildInstr r c w0 w1) = encodeFields r.type (r.value k) (k.conds.code c) w0 w1 := by
  rcases r with op | ⟨v, t⟩
  · cases op <;> rfl
  · cases t <;> rfl

theorem buildInstr_type (r : OpcodeRef) (c : Cond) (w0 w1 : Word) : (buildInstr r c w0 w1).type = r.type := by
  rcases r with op | ⟨v, t⟩
  · cases op <;> rfl
  · cases t <;> rfl

/-- Encoding writes zero in the reserved bits. -/
theorem reservedSet_encodeFields (t : InstrType) (v : OpValue) (c : CondValue) (w0 w1 : Word) :
    reservedSet t (encodeFields t v c w0 w1).1 (encodeFields t v c w0 w1).2 = false := by
  cases t with
  | register => exact reservedSet_encodeR ..
  | immediate => exact reservedSet_encodeI ..
  | jump => exact reservedSet_encodeJ ..

/-- Encoding its own fields gives a pair back exactly when its reserved bits are zero. -/
theorem encodeFields_eq_iff (t : InstrType) (w0 w1 : Word) :
    encodeFields t (opField w0) (condField w0) w0 w1 = (w0, w1) ↔ reservedSet t w0 w1 = false := by
  constructor
  · intro h
    simpa only [h] using reservedSet_encodeFields t (opField w0) (condField w0) w0 w1
  · intro h
    cases t with
    | register => exact encodeR_fields h
    | immediate => exact encodeI_fields h
    | jump => exact encodeJ_fields h

theorem encodeDecoded_eq_iff_of_decode {k : Config} {w0 w1 : Word} {d : Decoded} (h : decode k w0 w1 = .ok d) :
    encodeDecoded k d = (w0, w1) ↔ reservedSet d.type w0 w1 = false := by
  obtain ⟨r, c, hr, hc, rfl, -, -⟩ := decode_ok h
  rw [encodeDecoded_buildInstr, value_of_lookupOpcode hr, lookupCond_some hc, buildInstr_type, encodeFields_eq_iff]

theorem reservedSet_of_decode {k : Config} (hp : k.reservedBits = .fault) {w0 w1 : Word} {d : Decoded}
    (h : decode k w0 w1 = .ok d) : reservedSet d.type w0 w1 = false := by
  obtain ⟨r, c, -, -, rfl, -, hres⟩ := decode_ok h
  rw [buildInstr_type]
  exact hres.resolve_right (by simp [hp])

/-- Settles O1: `decode_encodeDecoded` one way, `encodeDecoded_eq_iff_of_decode` the other. -/
theorem codecRoundTrip : Obligations.CodecRoundTrip := by
  unfold Obligations.CodecRoundTrip
  intro k hk
  refine ⟨fun d hd => decode_encodeDecoded hk hd, fun w0 w1 d h => ?_, fun hp w0 w1 d h => ?_⟩
  · obtain ⟨r, c, -, -, -, hwf, -⟩ := decode_ok h
    exact ⟨hwf, encodeDecoded_eq_iff_of_decode h⟩
  · have hres := reservedSet_of_decode hp h
    exact ⟨hres, (encodeDecoded_eq_iff_of_decode h).2 hres⟩

/-! ## The reserved-bits policy (30_encoding.md R67, R70) -/

theorem Decoded.wf_withReservedBits (k : Config) (p : ReservedBitsPolicy) (d : Decoded) :
    d.wf { k with reservedBits := p } = d.wf k := by
  cases d <;> rfl

/-- What the policy can change: a pair refused by an earlier check is refused under both policies alike, and any other is
refused for its reserved bits under `Fault` alone. -/
theorem decode_policy_cases (k : Config) (w0 w1 : Word) :
    (∃ e, e ≠ .reservedBitsSet ∧ ∀ p, decode { k with reservedBits := p } w0 w1 = .error e) ∨
    ∃ d : Decoded, ∀ p, decode { k with reservedBits := p } w0 w1
      = if reservedSet d.type w0 w1 = true ∧ p = .fault then .error .reservedBitsSet else .ok d := by
  cases hr : lookupOpcode k (opField w0) with
  | none => exact .inl ⟨.unknownOpcode, nofun, fun p => (decode_eq_unknownOpcode_iff ..).2 hr⟩
  | some r =>
    cases hc : lookupCond k (condField w0) with
    | none =>
      exact .inl ⟨.unknownCondition, nofun, fun p =>
        (decode_eq_unknownCondition_iff ..).2 ⟨ne_of_eq_of_ne hr nofun, hc⟩⟩
    | some c =>
      have hdec (p : ReservedBitsPolicy) := decode_of_lookups (k := { k with reservedBits := p }) (w1 := w1) hr hc
      simp only [Decoded.wf_withReservedBits] at hdec
      cases hw : (buildInstr r c w0 w1).wf k with
      | false => exact .inl ⟨.unknownRegister, nofun, fun p => by rw [hdec, if_pos hw]⟩
      | true => exact .inr ⟨buildInstr r c w0 w1, fun p => by rw [hdec, if_neg (by simp [hw]), buildInstr_type]⟩

/-- Settles O4, by `decode_policy_cases`. -/
theorem reservedBitsPolicyDecides : Obligations.ReservedBitsPolicyDecides := by
  unfold Obligations.ReservedBitsPolicyDecides
  intro k w0 w1
  rcases decode_policy_cases k w0 w1 with ⟨e, he, hdec⟩ | ⟨d, hdec⟩
  · simp [hdec, he]
  · simp [hdec]

/-! ## Written-out Words (30_encoding.md R56 to R59) -/

/-- Settles O5, by running decode on each pair. -/
theorem writtenOutWordsDecode : Obligations.WrittenOutWordsDecode := by
  unfold Obligations.WrittenOutWordsDecode
  decide

end Sys2Proof
end

section
/-! SUPPORT. Every line the assembler accepts is a well-formed table instruction, so its Words decode to it (30_encoding.md
R76 to R83). -/

namespace Sys2Proof.Machine

open Sys2Proof

/-! ## Operands (30_encoding.md R76, R79, R82) -/

theorem mem_of_findReg {t : List Char} {n : Nat} {cs : List RegCode} {r : RegCode} (h : findReg t n cs = some r) :
    r ∈ cs := by
  induction cs generalizing n with
  | nil => cases h
  | cons c cs ih =>
    rw [findReg] at h
    split_ifs at h
    · cases h; exact List.mem_cons_self
    · exact List.mem_cons_of_mem c (ih h)

/-- A register token names a general-purpose register. -/
theorem isGpr_of_parseReg {k : Config} {t : List Char} {r : RegCode} (h : parseReg k t = some r) :
    k.isGpr r = true :=
  List.contains_iff_mem.2 (mem_of_findReg h)

theorem regAndAddress_ok {k : Config} {d n : List Char} {f : RegCode → Word → Instr} {i : Instr}
    (h : regAndAddress k d n f = .ok i) : ∃ r a, k.isGpr r = true ∧ i = f r a := by
  unfold regAndAddress at h
  split at h <;> cases h
  next r a hr _ => exact ⟨r, a, isGpr_of_parseReg hr, rfl⟩

theorem twoRegs_ok {k : Config} {d s : List Char} {f : RegCode → RegCode → Instr} {i : Instr}
    (h : twoRegs k d s f = .ok i) : ∃ r q, k.isGpr r = true ∧ k.isGpr q = true ∧ i = f r q := by
  unfold twoRegs at h
  split at h <;> cases h
  next r q hr hq => exact ⟨r, q, isGpr_of_parseReg hr, isGpr_of_parseReg hq, rfl⟩

theorem jumpTarget_ok {n : List Char} {f : Word → Instr} {i : Instr} (h : jumpTarget n f = .ok i) :
    ∃ a, i = f a := by
  unfold jumpTarget at h
  split at h <;> cases h
  next a _ => exact ⟨a, rfl⟩

/-! ## Lines (30_encoding.md R80) -/

theorem wf_of_aluRegOrImmLine {k : Config} {c : Cond} {alu : Microcode} {d x : List Char} {i : Instr}
    (h : aluRegOrImmLine k c alu d x = .ok i) : i.wf k = true := by
  unfold aluRegOrImmLine at h
  split at h
  · obtain ⟨r, a, hr, rfl⟩ := regAndAddress_ok h
    simp [Instr.wf, Instr.usedRegs, hr]
  · obtain ⟨r, q, hr, hq, rfl⟩ := twoRegs_ok h
    simp [Instr.wf, Instr.usedRegs, hr, hq]

/-- A line's operands expand to a well-formed Instruction: its registers come from register tokens. -/
theorem wf_of_expandForm {k : Config} {c : Cond} {f : AsmForm} {ops : List (List Char)} {i : Instr}
    (h : expandForm k c f ops = .ok i) : i.wf k = true := by
  unfold expandForm at h
  split at h
  -- MOV, ADD, SUB, AND, OR
  case h_1 => exact wf_of_aluRegOrImmLine h
  -- INC, DEC
  case h_2 =>
    split at h <;> cases h
    next r hr => simp [Instr.wf, Instr.usedRegs, isGpr_of_parseReg hr]
  -- LOAD, STORE
  case h_3 | h_4 => obtain ⟨r, a, hr, rfl⟩ := regAndAddress_ok h; simp [Instr.wf, Instr.usedRegs, hr]
  -- LOADR, STORR
  case h_5 | h_6 => obtain ⟨r, q, hr, hq, rfl⟩ := twoRegs_ok h; simp [Instr.wf, Instr.usedRegs, hr, hq]
  -- JMP, B
  case h_7 | h_8 => obtain ⟨a, rfl⟩ := jumpTarget_ok h; rfl
  -- NOP
  case h_9 => cases h; rfl
  -- a wrong number of operands
  case h_10 => cases h

theorem wf_of_expandLine {k : Config} {l : List Char} {i : Instr} (h : expandLine k l = .ok i) : i.wf k = true := by
  unfold expandLine at h
  split at h
  · cases h
  · unfold expandTokens at h
    dsimp only at h
    split at h
    · cases h
    · exact wf_of_expandForm h

/-! ## The whole source (30_encoding.md R81, R83) -/

/-- Settles O54: the Words are the encodings of lines' Instructions (`assembleLines_words`), which are well-formed and so
decode to themselves (`decode_encode`). -/
theorem assembledPairsDecode : Obligations.AssembledPairsDecode := by
  unfold Obligations.AssembledPairsDecode
  intro k source ws hk h
  obtain ⟨is, hws, hlines⟩ := assembleLines_words h
  refine ⟨is, hws, fun i hi => ?_⟩
  obtain ⟨l, hl⟩ := hlines i hi
  exact (decode_encode hk i).trans (if_pos (wf_of_expandLine hl))

/-- Settles O53, by running the assembler on the text and decode on its Words. -/
theorem fixedProgramAssemblesAndDecodes : Obligations.FixedProgramAssemblesAndDecodes := by
  unfold Obligations.FixedProgramAssemblesAndDecodes
  exact ⟨by decide, by decide, by decide, by decide⟩

end Sys2Proof.Machine
end

section
/-! SUPPORT. The result and all four flags of `compute`: from the preprocessed operands alone, and for each of the named
microcodes (40_alu.md R84 to R110). -/

namespace Sys2Proof.Machine

open Sys2Proof

/-! ## The flags of a result (40_alu.md R88 to R91) -/

/-- `overflow` is the carry out of the exact sum, and only of a sum (R88). -/
theorem aluOverflow_eq (x y : Word) (op : Microcode) :
    aluOverflow x y op = decide (microF op = true ∧ 2 ^ 32 ≤ (aluX op x).toNat + (aluY op y).toNat) := by
  have hsum : (aluSum33 x y op).toNat = (aluX op x).toNat + (aluY op y).toNat := by
    simp only [aluSum33, BitVec.toNat_add, BitVec.truncate_eq_setWidth, BitVec.toNat_setWidth]
    omega
  have hcarry : aluSum33 x y op ≠ ((aluSum33 x y op).setWidth 32).zeroExtend 33 ↔
      2 ^ 32 ≤ (aluX op x).toNat + (aluY op y).toNat := by
    rw [← hsum, ne_eq, ← BitVec.toNat_inj]
    simp only [BitVec.truncate_eq_setWidth, BitVec.toNat_setWidth]
    omega
  rw [Bool.eq_iff_iff]
  simp only [aluOverflow, Bool.and_eq_true, bne_iff_ne, hcarry, decide_eq_true_iff]

theorem getLsbD_31 (w : Word) : w.getLsbD 31 = decide (2 ^ 31 ≤ w.toNat) :=
  w.msb_eq_getLsbD_last.symm.trans w.msb_eq_decide

/-- The flags R88 to R91 give the result of `compute`. -/
theorem compute_eq_withFlags (x y : Word) (op : Microcode) : compute x y op
    = withFlags (aluOut x y op) (microF op = true ∧ 2 ^ 32 ≤ (aluX op x).toNat + (aluY op y).toNat) := by
  simp only [compute, withFlags, aluFlags, aluOverflow_eq, getLsbD_31, beq_eq_decide]

/-- Settles O6, by the flags of `compute_eq_withFlags`; the signed overflow is run. -/
theorem aluFlagsComeFromTheExactSum : Obligations.AluFlagsComeFromTheExactSum := by
  unfold Obligations.AluFlagsComeFromTheExactSum
  refine ⟨fun x y op => ?_, by decide⟩
  simp only [compute_eq_withFlags, withFlags, decide_eq_true_iff, iff_self, and_self]

/-! ## What `compute` depends on -/

/-- Operands enter only as preprocessed, so a microcode that treats them the other way round gives the same on operands
the other way round. -/
theorem compute_swap (op op' : Microcode) (x y : Word) (hX : aluX op x = aluY op' x) (hY : aluY op y = aluX op' y)
    (hf : microF op = microF op') (hno : microNo op = microNo op') : compute x y op = compute y x op' := by
  simp only [compute_eq_withFlags, aluOut, hX, hY, hf, hno, BitVec.add_comm (aluY op' x), BitVec.and_comm (aluY op' x),
    Nat.add_comm (aluY op' x).toNat]

theorem compute_congr {op : Microcode} {x x' y y' : Word} (hX : aluX op x = aluX op x') (hY : aluY op y = aluY op y') :
    compute x y op = compute x' y' op := by
  simp only [compute_eq_withFlags, aluOut, hX, hY]

/-- A zeroed operand is preprocessed to the same Word whatever it was (R86). -/
theorem prepOperand_zeroed (n : Bool) (v v' : Word) : prepOperand true n v = prepOperand true n v' := rfl

/-- Settles O9: the preprocessed operand no longer depends on the zeroed one. -/
theorem zeroedOperandIsIgnored : Obligations.ZeroedOperandIsIgnored := by
  unfold Obligations.ZeroedOperandIsIgnored
  refine ⟨fun op x x' y hz => compute_congr ?_ rfl, fun op x y y' hz => compute_congr rfl ?_⟩
  · rw [aluX, aluX, show microZx op = true from hz, prepOperand_zeroed]
  · rw [aluY, aluY, show microZy op = true from hz, prepOperand_zeroed]

/-! ## The two kinds of microcode: sums and conjunctions (40_alu.md R86) -/

theorem withFlags_congr {w : Word} {o o' : Prop} [Decidable o] [Decidable o'] (h : o ↔ o') :
    withFlags w o = withFlags w o' := by
  simp only [withFlags, h]

/-- A microcode with `f` set. -/
theorem compute_of_sum {op : Microcode} {x y w : Word} {o : Prop} [Decidable o] (hf : microF op = true)
    (hw : aluOut x y op = w) (ho : 2 ^ 32 ≤ (aluX op x).toNat + (aluY op y).toNat ↔ o) :
    compute x y op = withFlags w o := by
  rw [compute_eq_withFlags, hw]
  exact withFlags_congr ((and_iff_right hf).trans ho)

/-- A microcode with `f` clear cannot set `overflow`. -/
theorem compute_of_and {op : Microcode} {x y w : Word} (hf : microF op = false) (hw : aluOut x y op = w) :
    compute x y op = withFlags w False := by
  rw [compute_eq_withFlags, hw]
  exact withFlags_congr (by simp [hf])

/-! ## The carry out of the sums that occur -/

theorem carry_not_add (a b : Word) : 2 ^ 32 ≤ (~~~a).toNat + b.toNat ↔ a.toNat < b.toNat := by
  rw [BitVec.toNat_not]; omega

theorem carry_add_ones (a : Word) : 2 ^ 32 ≤ a.toNat + (~~~(0 : Word)).toNat ↔ a ≠ 0 := by
  bv_omega

theorem carry_not_add_ones (a : Word) : 2 ^ 32 ≤ (~~~a).toNat + (~~~(0 : Word)).toNat ↔ a ≠ 0xFFFFFFFF := by
  bv_omega

/-! ## The arithmetic microcodes (40_alu.md R96 to R104) -/

theorem compute_additionSigned (a b : Word) :
    compute a b additionSigned = withFlags (a + b) (2 ^ 32 ≤ a.toNat + b.toNat) :=
  compute_of_sum rfl rfl Iff.rfl

theorem compute_abSubtractionSigned (a b : Word) :
    compute a b abSubtractionSigned = withFlags (a - b) (a.toNat < b.toNat) :=
  compute_of_sum rfl (show ~~~(~~~a + b) = a - b by bv_omega) (carry_not_add a b)

theorem compute_baSubtractionSigned (a b : Word) :
    compute a b baSubtractionSigned = withFlags (b - a) (b.toNat < a.toNat) :=
  (compute_swap baSubtractionSigned abSubtractionSigned a b rfl rfl rfl rfl).trans (compute_abSubtractionSigned b a)

theorem compute_aNegative (a b : Word) : compute a b aNegative = withFlags (-a) (a ≠ 0) :=
  compute_of_sum rfl (show ~~~(a + ~~~0) = -a by bv_omega) (carry_add_ones a)

theorem compute_bNegative (a b : Word) : compute a b bNegative = withFlags (-b) (b ≠ 0) :=
  (compute_swap bNegative aNegative a b rfl rfl rfl rfl).trans (compute_aNegative b a)

theorem compute_aIncrement (a b : Word) : compute a b aIncrement = withFlags (a + 1) (a ≠ 0xFFFFFFFF) :=
  compute_of_sum rfl (aluOut_aIncrement a b) (carry_not_add_ones a)

theorem compute_bIncrement (a b : Word) : compute a b bIncrement = withFlags (b + 1) (b ≠ 0xFFFFFFFF) :=
  (compute_swap bIncrement aIncrement a b rfl rfl rfl rfl).trans (compute_aIncrement b a)

theorem compute_aDecrement (a b : Word) : compute a b aDecrement = withFlags (a - 1) (a ≠ 0) :=
  compute_of_sum rfl (show a + ~~~0 = a - 1 by bv_omega) (carry_add_ones a)

theorem compute_bDecrement (a b : Word) : compute a b bDecrement = withFlags (b - 1) (b ≠ 0) :=
  (compute_swap bDecrement aDecrement a b rfl rfl rfl rfl).trans (compute_aDecrement b a)

/-- Settles O7: each microcode on A by its sum, and the one on B as the mirror image (`compute_swap`). -/
theorem arithmeticMicrocodes : Obligations.ArithmeticMicrocodes := by
  unfold Obligations.ArithmeticMicrocodes
  exact fun a b => ⟨compute_additionSigned a b, compute_abSubtractionSigned a b, compute_baSubtractionSigned a b,
    compute_aNegative a b, compute_bNegative a b, compute_aIncrement a b, compute_bIncrement a b,
    compute_aDecrement a b, compute_bDecrement a b⟩

/-! ## The transfer and logic microcodes (40_alu.md R94, R95, R105 to R108) -/

theorem compute_transferA (a b : Word) : compute a b transferA = withFlags a False :=
  compute_of_and rfl (aluOut_transferA a b)

theorem compute_transferB (a b : Word) : compute a b transferB = withFlags b False :=
  compute_of_and rfl (aluOut_transferB a b)

theorem compute_logicalAnd (a b : Word) : compute a b logicalAnd = withFlags (a &&& b) False :=
  compute_of_and rfl rfl

theorem compute_logicalOr (a b : Word) : compute a b logicalOr = withFlags (a ||| b) False := by
  have hdeMorgan : ~~~(~~~a &&& ~~~b) = a ||| b := by
    rw [BitVec.not_and, BitVec.not_not, BitVec.not_not]
  exact compute_of_and rfl hdeMorgan

theorem compute_aLogicalNot (a b : Word) : compute a b aLogicalNot = withFlags (~~~a) False :=
  compute_of_and rfl (show ~~~(a &&& ~~~0) = ~~~a by simp)

theorem compute_bLogicalNot (a b : Word) : compute a b bLogicalNot = withFlags (~~~b) False :=
  (compute_swap bLogicalNot aLogicalNot a b rfl rfl rfl rfl).trans (compute_aLogicalNot b a)

/-- Settles O8: the six are conjunctions, possibly negated, of the preprocessed operands. -/
theorem transferAndLogicMicrocodes : Obligations.TransferAndLogicMicrocodes := by
  unfold Obligations.TransferAndLogicMicrocodes
  exact fun a b => ⟨compute_transferA a b, compute_transferB a b, compute_logicalAnd a b, compute_logicalOr a b,
    compute_aLogicalNot a b, compute_bLogicalNot a b⟩

end Sys2Proof.Machine
end

section
/-! SUPPORT. Everything a completed micro-operation leaves (41_fabric.md R113 to R118). -/

namespace Sys2Proof.Machine

open Sys2Proof

/-- The first half of a micro-operation changes no cell but MDR. -/
theorem readCell_latched {p : BusAddr} (h : p ≠ .mdr) (s : State) (v x y : Word) (r q dst : BusAddr) (op : Microcode) :
    State.readCell { s with mdr := v, aluA := x, aluB := y, selA := r, selB := q, aluOp := op, selW := dst } p
      = s.readCell p := by
  cases p with
  | mdr => exact absurd rfl h
  | _ => rfl

/-- A feed bus selected from `src` (`none`: kept) in `s`: what its selection `sel` and latch `x` are after it, from
`sel₀` and `x₀` before (R113). -/
def FeedsFrom (s : State) (src : Option BusAddr) (sel₀ sel : BusAddr) (x₀ x : Word) : Prop :=
  (∀ p, src = some p → sel = p ∧ (p ≠ .mdr → x = s.readCell p)) ∧ (src = none → sel = sel₀ ∧ x = x₀)

/-- The first half of a micro-operation: the latches and selections of both buses, and no cell but MDR. -/
theorem latchUop_latch (srcA srcB : Option BusAddr) (op : Microcode) (dst : BusAddr) (s : State) :
    ∃ v x y r q, (latchUop srcA srcB op dst s).1
        = { s with mdr := v, aluA := x, aluB := y, selA := r, selB := q, aluOp := op, selW := dst } ∧
      FeedsFrom s srcA s.selA r s.aluA x ∧ FeedsFrom s srcB s.selB q s.aluB y := by
  obtain ⟨va, x, r, ha, hsrcA⟩ := feedA_latch srcA s
  obtain ⟨v, y, q, hb, hsomeB, hnoneB⟩ := feedB_latch srcB (feedA srcA s).1
  rw [ha] at hb hsomeB hnoneB
  refine ⟨v, x, y, r, q, by simp only [latchUop, ha, hb], hsrcA, fun p hp => ?_, hnoneB⟩
  obtain ⟨hq, hy⟩ := hsomeB p hp
  exact ⟨hq, fun hne => (hy hne).trans (readCell_latched hne s va x s.aluB r s.selB s.selW s.aluOp)⟩

/-- A micro-operation that completes has no constant register as its destination (R112, R114). -/
theorem dst_ne_const_of_uop {srcA srcB : Option BusAddr} {op : Microcode} {dst : BusAddr} {s t : State}
    (h : uop srcA srcB op dst s = .ok t) (n : Nat) : dst ≠ .const n := by
  rintro rfl
  cases hr : resolveUop s.config srcA srcB (.const n) with
  | some e => rw [uop_of_refused hr] at h; cases h
  | none =>
    obtain ⟨-, -, hlisted⟩ := (resolveUop_eq_none_iff ..).1 hr
    simp [BusAddr.writebackListed, BusAddr.access] at hlisted

/-- Settles O12: the first half latches (`latchUop_latch`), the second writes the destination and commits
(`writebackUop_ok`), and neither touches the rest (`uop_ok_frame`). -/
theorem microOperationWritesOnceAndCommitsOnce : Obligations.MicroOperationWritesOnceAndCommitsOnce := by
  unfold Obligations.MicroOperationWritesOnceAndCommitsOnce
  intro srcA srcB op dst s t h
  obtain ⟨hconfig, hfe, hcu, hcur, hfault, hselW⟩ := uop_ok_frame h
  obtain ⟨-, hw, rfl⟩ := uop_eq_ok h
  obtain ⟨hdst, hother, hflags, haluA, haluB, haluOp, hselA, hselB⟩ := writebackUop_ok (dst_ne_const_of_uop h) hw
  obtain ⟨v, x, y, r, q, hl, ⟨hsomeA, hnoneA⟩, hsomeB, hnoneB⟩ := latchUop_latch srcA srcB op dst s
  generalize (latchUop srcA srcB op dst s).1 = u at *
  subst hl
  rw [haluA, haluB, haluOp, hselA, hselB]
  exact ⟨hsomeA, hsomeB, hnoneA, hnoneB, hdst,
    fun p hp hmdr => (hother p hp).trans (readCell_latched hmdr s v x y r q dst op),
    hflags, hfe, rfl, hselW, hconfig, hcu, hcur, hfault⟩

end Sys2Proof.Machine
end

section
/-! SUPPORT. Which instructions and pulses end in a FabricError: exactly those whose micro-operations select a register
field that names no register (41_fabric.md R114, R120). -/

namespace Sys2Proof.Machine

open Sys2Proof

/-! ## The FabricError of a micro-operation (41_fabric.md R116) -/

/-- The FabricError that ended a sequence of micro-operations, if one did. -/
def Run.fabricError : Run → Option FabricError
  | .raised (.fabricError e) _ => some e
  | .raised _ _ | .ok _ => none

theorem Run.fabricError_raised_eq_none {k : FaultKind} (hk : ∀ e, k ≠ .fabricError e) (s : State) :
    (Run.raised k s).fabricError = none := by
  cases k with
  | fabricError e => exact absurd rfl (hk e)
  | _ => rfl

/-- The FabricError of a micro-operation is what its checks answer: nothing after them raises one. -/
theorem uop_fabricError (srcA srcB : Option BusAddr) (op : Microcode) (dst : BusAddr) (s : State) :
    (uop srcA srcB op dst s).fabricError = resolveUop s.config srcA srcB dst := by
  rcases uop_cases srcA srcB op dst s with ⟨e, hr, hu⟩ | ⟨hr, -, hu⟩ | ⟨k, hr, -, hu⟩
  · rw [hu, hr]; rfl
  · rw [hu, hr]; rfl
  · rw [hu, hr]; exact Run.fabricError_raised_eq_none (uop_raised_kind hr hu) _

/-- Where every selected cell may be read and written, only the first check of R116 can fail. The control unit and the
routines select no other cells. -/
theorem resolveUop_of_readWrite (k : Config) {srcA srcB : Option BusAddr} {dst : BusAddr}
    (hA : ∀ r ∈ srcA, r.access = .readWrite := by simp [BusAddr.access])
    (hB : ∀ r ∈ srcB, r.access = .readWrite := by simp [BusAddr.access])
    (hdst : dst.access = .readWrite := by rfl) :
    resolveUop k srcA srcB dst
      = if feedNamed k srcA && feedNamed k srcB && dst.exists k then none else some .illegalAddress := by
  have hfeed {src : Option BusAddr} (h : ∀ r ∈ src, r.access = .readWrite) : feedReadable src = true := by
    cases src with
    | none => rfl
    | some r => simp [feedReadable, h r rfl]
  unfold resolveUop
  cases hn : feedNamed k srcA && feedNamed k srcB && dst.exists k <;> simp [hfeed hA, hfeed hB, hdst]

/-! ## Micro-operations that select no MDR -/

/-- A feed bus that does not select MDR reads no memory. -/
theorem feed_fault_of_ne_mdr {src : Option BusAddr} (h : src ≠ some .mdr) (s : State) :
    (feedA src s).2 = none ∧ (feedB src s).2 = none := by
  rcases src with _ | r
  · exact ⟨rfl, rfl⟩
  · cases r with
    | mdr => exact absurd rfl h
    | _ => exact ⟨rfl, rfl⟩

/-- A micro-operation that passes its checks and does not select MDR completes. -/
theorem uop_completes_of_ne_mdr {srcA srcB : Option BusAddr} {dst : BusAddr} {s : State} (hA : srcA ≠ some .mdr)
    (hB : srcB ≠ some .mdr) (hdst : dst ≠ .mdr) (op : Microcode) (hr : resolveUop s.config srcA srcB dst = none) :
    ∃ t, uop srcA srcB op dst s = .ok t := by
  have hlatch : (latchUop srcA srcB op dst s).2 = none :=
    Option.or_eq_none_iff.2 ⟨(feed_fault_of_ne_mdr hA s).1, (feed_fault_of_ne_mdr hB _).2⟩
  have hwrite : (writebackUop dst (latchUop srcA srcB op dst s).1).2 = none := by
    rcases writebackUop_cases dst (latchUop srcA srcB op dst s).1 with ⟨-, hw⟩ | ⟨hd, -⟩ | ⟨hd, -⟩
    · rw [hw]
    · exact absurd hd hdst
    · exact absurd hd hdst
  have hcommit : (commitUop srcA srcB op dst s).2 = none := Option.or_eq_none_iff.2 ⟨hlatch, hwrite⟩
  rcases uop_cases srcA srcB op dst s with ⟨e, he, -⟩ | ⟨-, -, hu⟩ | ⟨k, -, hk, -⟩
  · exact absurd (hr.symm.trans he) nofun
  · exact ⟨_, hu⟩
  · exact absurd (hcommit.symm.trans hk) nofun

/-- A micro-operation that does not select MDR, followed by others whose FabricError the parameters decide. -/
theorem uop_andThen_fabricError {srcA srcB : Option BusAddr} {op : Microcode} {dst : BusAddr} {s : State}
    {f : State → Run} {o : Option FabricError} (hf : ∀ t, t.config = s.config → (f t).fabricError = o)
    (hA : srcA ≠ some .mdr := by nofun) (hB : srcB ≠ some .mdr := by nofun) (hdst : dst ≠ .mdr := by nofun) :
    ((uop srcA srcB op dst s).andThen f).fabricError = (resolveUop s.config srcA srcB dst).or o := by
  cases hr : resolveUop s.config srcA srcB dst with
  | some e => rw [uop_of_refused hr]; rfl
  | none =>
    obtain ⟨t, ht⟩ := uop_completes_of_ne_mdr hA hB hdst op hr
    rw [ht]
    exact hf t (uop_ok_frame ht).1

/-! ## The FabricError of a routine -/

theorem aluRoutine_fabricError (d : RegCode) (srcB : BusAddr) (alu : Microcode) (s : State) :
    (aluRoutine d srcB alu s).fabricError = resolveUop s.config (some (.gp d)) (some srcB) (.gp d) :=
  uop_fabricError ..

theorem loadIntoReg_fabricError (d : RegCode) (s : State) :
    (loadIntoReg d s).fabricError = if s.config.isGpr d then none else some .illegalAddress := by
  rw [loadIntoReg, uop_fabricError, regOperand, resolveUop_of_readWrite]
  simp [feedNamed, BusAddr.exists]

theorem storeFromReg_fabricError (d : RegCode) (s : State) :
    (storeFromReg d s).fabricError = if s.config.isGpr d then none else some .illegalAddress := by
  rw [storeFromReg, uop_fabricError, regOperand, resolveUop_of_readWrite]
  simp [feedNamed, BusAddr.exists]

/-- A register-indirect access: its address comes from GPr, and `f` moves GPd. -/
theorem addressFromReg_andThen_fabricError {r d : RegCode} {s : State} {f : State → Run}
    (hf : ∀ t, (f t).fabricError = if t.config.isGpr d then none else some .illegalAddress) :
    ((addressFromReg r s).andThen f).fabricError
      = if s.config.isGpr d && s.config.isGpr r then none else some .illegalAddress := by
  rw [addressFromReg, uop_andThen_fabricError fun t ht => (hf t).trans (by rw [ht]), regOperand,
    resolveUop_of_readWrite]
  cases hr : s.config.isGpr r <;> simp [feedNamed, BusAddr.exists, hr]

/-- An absolute access: its address comes from IRB, and `f` moves GPd. -/
theorem addressFromImm_andThen_fabricError {d : RegCode} {s : State} {f : State → Run}
    (hf : ∀ t, (f t).fabricError = if t.config.isGpr d then none else some .illegalAddress) :
    ((addressFromImm s).andThen f).fabricError = if s.config.isGpr d then none else some .illegalAddress := by
  rw [addressFromImm, uop_andThen_fabricError fun t ht => (hf t).trans (by rw [ht]), highWordOperand,
    resolveUop_of_readWrite]
  simp [feedNamed, BusAddr.exists]

/-- A routine ends in a FabricError exactly where its instruction uses a register field that names no register, and it
is IllegalAddress. -/
theorem routineOf_fabricError (i : Instr) (s : State) :
    (routineOf i s s).fabricError = if i.wf s.config then none else some .illegalAddress := by
  cases i with
  | nop | clz | clof | clng => rfl
  | jmp | b => exact (uop_fabricError none (some .irb) transferB .pc s).trans rfl
  | aopr c d r a =>
    rw [routineOf, aluRoutine_fabricError, regOperand, resolveUop_of_readWrite]
    cases hd : s.config.isGpr d <;> simp [feedNamed, Instr.wf, Instr.usedRegs, hd]
  | aopi c d a imm =>
    rw [routineOf, aluRoutine_fabricError, highWordOperand, resolveUop_of_readWrite]
    simp [feedNamed, BusAddr.exists, Instr.wf, Instr.usedRegs]
  | loadr c d r a =>
    exact (addressFromReg_andThen_fabricError (loadIntoReg_fabricError d)).trans (by simp [Instr.wf, Instr.usedRegs])
  | storr c d r a =>
    exact (addressFromReg_andThen_fabricError (storeFromReg_fabricError d)).trans (by simp [Instr.wf, Instr.usedRegs])
  | load c d a imm =>
    exact (addressFromImm_andThen_fabricError (loadIntoReg_fabricError d)).trans (by simp [Instr.wf, Instr.usedRegs])
  | store c d a imm =>
    exact (addressFromImm_andThen_fabricError (storeFromReg_fabricError d)).trans (by simp [Instr.wf, Instr.usedRegs])

/-! ## The FabricError of a pulse -/

/-- A pulse ends in a FabricError exactly where its micro-operations did. -/
theorem Run.finish_faults_fabricError_iff (r : Run) (g : State → State) (e : FabricError) :
    Faults (r.finish g) (.fabricError e) ↔ r.fabricError = some e := by
  cases r with
  | ok s => simp [Faults, Run.fabricError]
  | raised k s => cases k <;> simp [Faults, Run.fabricError]

/-- An Execute phase ends in a FabricError exactly where its condition holds and its routine does. -/
theorem executePhase_faults_fabricError_iff (c : Cond) (r : State → Run) (s : State) (e : FabricError) :
    Faults (executePhase c r s) (.fabricError e) ↔ CondTrue c s ∧ (r s).fabricError = some e := by
  unfold executePhase
  split
  next hc => simp [Faults, hc]
  next hc => simp [Faults, hc]
  next hc => rw [Run.finish_faults_fabricError_iff, and_iff_right hc]

/-- A table instruction ends in a FabricError exactly where its condition holds and it uses a register field that names
no register (R114, R120). -/
theorem exec_faults_fabricError_iff (i : Instr) (s : State) (e : FabricError) :
    Faults (exec i s) (.fabricError e) ↔ CondTrue i.cond s ∧ i.wf s.config = false ∧ e = .illegalAddress := by
  rw [exec_eq, executePhase_faults_fabricError_iff, routineOf_fabricError]
  cases i.wf s.config <;> simp [eq_comm]

/-- Settles O34, by `exec_faults_fabricError_iff`. -/
theorem unnamedRegisterStops : Obligations.UnnamedRegisterStops := by
  unfold Obligations.UnnamedRegisterStops
  exact fun i s hwf hc => (exec_faults_fabricError_iff i s _).2 ⟨hc, hwf, rfl⟩

theorem execExtra_not_fabricError (x : ExtraInstr) (s : State) (e : FabricError) :
    ¬ Faults (execExtra x s) (.fabricError e) := by
  rw [execExtra, executePhase_faults_fabricError_iff]
  rintro ⟨-, h⟩
  cases h

/-- The two micro-operations of Fetch1 and Fetch2. -/
theorem fetch_fabricError (op : Microcode) {r : BusAddr} {s : State} (hr : r.writebackListed s.config = true) :
    ((uop (some .pc) none op .mar s).andThen (uop none (some .mdr) transferB r)).fabricError = none :=
  uop_andThen_fabricError fun t ht => (uop_fabricError ..).trans (resolveUop_mdr (by rw [ht, hr]))

/-- The checks of Decode raise only a DecodeError. -/
theorem decodeCurrent_fabricError (s : State) : (decodeCurrent s).fabricError = none := by
  unfold decodeCurrent
  split <;> rfl

theorem Run.andThen_assoc (r : Run) (f g : State → Run) :
    (r.andThen f).andThen g = r.andThen fun t => (f t).andThen g := by
  cases r <;> rfl

/-- The two increments of Decode and its checks. -/
theorem increments_decodeCurrent_fabricError (op : Microcode) (s : State) :
    (((uop (some .pc) none op .pc s).andThen (uop (some .pc) none op .pc)).andThen decodeCurrent).fabricError
      = none := by
  rw [Run.andThen_assoc]
  exact uop_andThen_fabricError fun _ _ => uop_andThen_fabricError fun t _ => decodeCurrent_fabricError t

/-- No step from a state that meets the invariant ends in a FabricError: the phases before Execute select fixed cells,
and the register fields of a decoded instruction name registers. -/
theorem step_not_fabricError {s : State} (hi : MachineInv s) (e : FabricError) :
    ¬ Faults (step s) (.fabricError e) := by
  simp only [step, hi.noFault]
  cases hc : s.cu with
  | fetch1 => simp [fetch1Pulse, Run.finish_faults_fabricError_iff, fetch_fabricError transferA (r := .ira) rfl]
  | fetch2 => simp [fetch2Pulse, Run.finish_faults_fabricError_iff, fetch_fabricError aIncrement (r := .irb) rfl]
  | decode => simp [decodePulse, Run.finish_faults_fabricError_iff, increments_decodeCurrent_fabricError]
  | execute =>
    obtain ⟨d, hcur, -⟩ := hi.current hc
    simp only [executePulse, hcur]
    cases d with
    | core i =>
      have hwf : i.wf s.config = true := List.all_eq_true.2 (current_operand hi hc hcur).2
      simp [exec_faults_fabricError_iff, hwf]
    | extra x => exact execExtra_not_fabricError x s e

/-- Settles O15, by `step_not_fabricError`. -/
theorem decodedInstructionsRaiseNoFabricError : Obligations.DecodedInstructionsRaiseNoFabricError := by
  unfold Obligations.DecodedInstructionsRaiseNoFabricError
  exact fun s hi f h e hk => step_not_fabricError hi e ⟨f, h, hk⟩

end Sys2Proof.Machine
end

section
/-! SUPPORT. What each pulse answers, with the whole next state: Fetch1, Fetch2 and Decode, the order of the phases, and
Execute with a false or a reserved condition (42_control_unit.md R121 to R132). -/

namespace Sys2Proof.Machine

open Sys2Proof

/-! ## The pulse a step runs (R132) -/

theorem step_fetch1 {s : State} (hn : s.fault = none) (hc : s.cu = .fetch1) : step s = fetch1Pulse s := by
  simp only [step, hn, hc]

theorem step_fetch2 {s : State} (hn : s.fault = none) (hc : s.cu = .fetch2) : step s = fetch2Pulse s := by
  simp only [step, hn, hc]

theorem step_decode {s : State} (hn : s.fault = none) (hc : s.cu = .decode) : step s = decodePulse s := by
  simp only [step, hn, hc]

theorem step_execute {s : State} (hn : s.fault = none) (hc : s.cu = .execute) : step s = executePulse s := by
  simp only [step, hn, hc]

/-! ## Fetch1 and Fetch2 (R124, R125) -/

/-- A MemRead that does not answer is an AddressFault of an address no backing word holds, or the UnwrittenRead of a
Word nothing has written. -/
theorem memRead_error {s : State} {a : Word} {k : FaultKind} (h : memRead s a = .error k) :
    k = .addressFault a ∧ backed s.config.regions a = false ∨ k = .unwrittenRead a ∧ s.mem.read a.toNat = none := by
  rcases memRead_cases s a with ⟨hm, hb⟩ | ⟨hm, -, hnone⟩ | ⟨w, hm, -⟩ <;> rw [hm] at h <;> cases h
  · exact .inl ⟨rfl, hb⟩
  · exact .inr ⟨rfl, hnone⟩

/-- The MemRead of a fetch that faults: the free choice of partial writes does not reach MAR, PC, flags or memory, nor
IRA where the destination is IRB. -/
theorem uop_mdr_to_ir_fault {s : State} {r : BusAddr} {k : FaultKind} (hf : s.fe = false) (hr : r = .ira ∨ r = .irb)
    (hm : memRead s s.mar = .error k) :
    ∃ u, uop none (some .mdr) transferB r s = .raised k u ∧ u.mar = s.mar ∧ u.cu = s.cu ∧ u.pc = s.pc ∧
      (r = .irb → u.ira = s.ira) ∧ u.flags = s.flags ∧ u.mem = s.mem := by
  rcases hr with rfl | rfl
  · exact ⟨_, uop_mdr_to_fault hf rfl (by simp) hm, partialWrites_mar rfl, partialWrites_cu .., partialWrites_pc rfl,
      nofun, partialWrites_flags rfl, partialWrites_mem ..⟩
  · exact ⟨_, uop_mdr_to_fault hf rfl (by simp) hm, partialWrites_mar rfl, partialWrites_cu .., partialWrites_pc rfl,
      fun _ => partialWrites_ira rfl, partialWrites_flags rfl, partialWrites_mem ..⟩

/-- A step in Fetch1 where the Word at PC cannot be read (R124). -/
theorem step_fetch1_of_error {s : State} {k : FaultKind} (hn : s.fault = none) (hf : s.fe = false)
    (hc : s.cu = .fetch1) (hm : memRead s s.pc = .error k) :
    ∃ u, step s = .fault (raiseFault k u) ∧ u.mar = s.pc ∧ u.cu = .fetch1 ∧ u.pc = s.pc ∧ u.flags = s.flags ∧
      u.mem = s.mem := by
  obtain ⟨u, hu, hmar, hcu, hpc, -, hflags, hmem⟩ := uop_mdr_to_ir_fault (r := .ira) (s := { s with
    aluA := s.pc, selA := .pc, aluOp := transferA, mar := s.pc, selW := .void }) hf (.inl rfl) hm
  refine ⟨u, ?_, hmar, hcu.trans hc, hpc, hflags, hmem⟩
  rw [step_fetch1 hn hc, fetch1Pulse, uop_pc_to_mar hf, Run.andThen_ok, hu, Run.finish_raised]

/-- A step in Fetch2 where the Word at `PC + 1` can be read, with the whole next state (R125). -/
theorem step_fetch2_of_read {s : State} {w : Word} (hn : s.fault = none) (hf : s.fe = false) (hc : s.cu = .fetch2)
    (hm : memRead s (s.pc + 1) = .ok w) :
    step s = .next { s with
      mar := s.pc + 1, mdr := w, irb := w, cu := .decode
      aluA := s.pc, selA := .pc, aluB := w, selB := .mdr, aluOp := transferB, selW := .void } := by
  rw [step_fetch2 hn hc, fetch2Pulse, uop_pcInc_to_mar hf, Run.andThen_ok,
    uop_mdr_to (w := w) (by exact hf) rfl (by simp) hm]
  rfl

/-- A step in Fetch2 where the Word at `PC + 1` cannot be read (R125). -/
theorem step_fetch2_of_error {s : State} {k : FaultKind} (hn : s.fault = none) (hf : s.fe = false)
    (hc : s.cu = .fetch2) (hm : memRead s (s.pc + 1) = .error k) :
    ∃ u, step s = .fault (raiseFault k u) ∧ u.mar = s.pc + 1 ∧ u.cu = .fetch2 ∧ u.pc = s.pc ∧ u.ira = s.ira ∧
      u.flags = s.flags ∧ u.mem = s.mem := by
  obtain ⟨u, hu, hmar, hcu, hpc, hira, hflags, hmem⟩ := uop_mdr_to_ir_fault (r := .irb) (s := { s with
    aluA := s.pc, selA := .pc, aluOp := aIncrement, mar := s.pc + 1, selW := .void }) hf (.inr rfl) hm
  refine ⟨u, ?_, hmar, hcu.trans hc, hpc, hira rfl, hflags, hmem⟩
  rw [step_fetch2 hn hc, fetch2Pulse, uop_pcInc_to_mar hf, Run.andThen_ok, hu, Run.finish_raised]

/-- Settles O16, by the two answers of the MemRead of PC. -/
theorem fetchOneLoadsIra : Obligations.FetchOneLoadsIra := by
  unfold Obligations.FetchOneLoadsIra
  intro s hn hc hf
  refine ⟨fun w hm => step_fetch1_of_read hn hf hc hm, fun k hm => ⟨memRead_error hm, ?_⟩⟩
  obtain ⟨u, hstep, hu⟩ := step_fetch1_of_error hn hf hc hm
  exact ⟨_, hstep, raiseFault_kind .., by rwa [raiseFault_stopped]⟩

/-- Settles O17, by the two answers of the MemRead of `PC + 1`. -/
theorem fetchTwoLoadsIrb : Obligations.FetchTwoLoadsIrb := by
  unfold Obligations.FetchTwoLoadsIrb
  intro s hn hc hf
  refine ⟨fun w hm => step_fetch2_of_read hn hf hc hm, fun k hm => ⟨memRead_error hm, ?_⟩⟩
  obtain ⟨u, hstep, hu⟩ := step_fetch2_of_error hn hf hc hm
  exact ⟨_, hstep, raiseFault_kind .., by rwa [raiseFault_stopped]⟩

/-! ## Decode (R126) -/

/-- The state Decode makes its checks in: PC has been incremented twice. -/
def State.pcAdvanced (s : State) : State :=
  { s with pc := s.pc + 2, aluA := s.pc + 1, selA := .pc, aluOp := aIncrement, selW := .void }

/-- The two increments of Decode, which no check precedes. -/
theorem increments_eq {s : State} (hf : s.fe = false) :
    (uop (some .pc) none aIncrement .pc s).andThen (uop (some .pc) none aIncrement .pc) = .ok s.pcAdvanced := by
  rw [uop_pcInc_to_pc hf, Run.andThen_ok, uop_pcInc_to_pc (by exact hf)]
  simp only [State.pcAdvanced, show s.pc + 1 + 1 = s.pc + 2 by bv_omega]

/-- The Decode pulse is its checks in the advanced state, then `cu <- Execute`. -/
theorem decodePulse_eq {s : State} (hf : s.fe = false) :
    decodePulse s = (decodeCurrent s.pcAdvanced).finish fun t => { t with cu := .execute } := by
  rw [decodePulse, increments_eq hf, Run.andThen_ok]

/-- A step in Decode of a pair that is an Instruction, with the whole next state. -/
theorem step_decode_of_ok {s : State} {d : Decoded} (hn : s.fault = none) (hf : s.fe = false) (hc : s.cu = .decode)
    (hd : decode s.config s.ira s.irb = .ok d) :
    step s = .next { s.pcAdvanced with cur := some d, cu := .execute } := by
  rw [step_decode hn hc, decodePulse_eq hf]
  simp only [decodeCurrent, State.pcAdvanced, hd, Run.finish_ok]

/-- A step in Decode of a pair that is no Instruction: the fault is raised in the advanced state. -/
theorem step_decode_of_error {s : State} {e : DecodeError} (hn : s.fault = none) (hf : s.fe = false)
    (hc : s.cu = .decode) (hd : decode s.config s.ira s.irb = .error e) :
    step s = .fault (raiseFault (.decodeError e) s.pcAdvanced) := by
  rw [step_decode hn hc, decodePulse_eq hf]
  simp only [decodeCurrent, State.pcAdvanced, hd, Run.finish_raised]

/-- Settles O18, by the two answers of `decode`. -/
theorem decodeAdvancesPcThenChecks : Obligations.DecodeAdvancesPcThenChecks := by
  unfold Obligations.DecodeAdvancesPcThenChecks
  intro s hn hc hf
  refine ⟨fun d hd => step_decode_of_ok hn hf hc hd, fun e hd =>
    ⟨_, step_decode_of_error hn hf hc hd, raiseFault_kind .., ?_⟩⟩
  simp only [raiseFault_stopped, faultRecord, State.pcAdvanced, hc]

/-! ## The order of the phases (R121) -/

/-- The next state of each control-unit state (R121). -/
def Phase.next : Phase → Phase
  | .fetch1 => .fetch2
  | .fetch2 => .decode
  | .decode => .execute
  | .execute => .fetch1

/-- An Execute phase that answers a next state ends in Fetch1, whether or not its routine ran. -/
theorem executePhase_next_cu {c : Cond} {r : State → Run} {s t : State} (h : executePhase c r s = .next t) :
    t.cu = .fetch1 := by
  rcases executePhase_next h with ⟨-, rfl⟩ | ⟨-, u, -, rfl⟩ <;> rfl

/-- A step that answers a next state moves the control unit to the next phase. -/
theorem step_next_cu {s t : State} (h : step s = .next t) : t.cu = s.cu.next := by
  obtain ⟨-, ⟨hc, h⟩ | ⟨hc, h⟩ | ⟨hc, h⟩ | ⟨hc, ⟨i, -, h⟩ | ⟨e, -, h⟩⟩⟩ := step_next h <;> rw [hc]
  · obtain ⟨u, -, rfl⟩ := Run.finish_eq_next h; rfl
  · obtain ⟨u, -, rfl⟩ := Run.finish_eq_next h; rfl
  · obtain ⟨u, -, rfl⟩ := Run.finish_eq_next h; rfl
  · rw [exec_eq] at h; exact executePhase_next_cu h
  · exact executePhase_next_cu h

/-- Settles O20, by `step_next_cu`. -/
theorem phasesFollowInOrder : Obligations.PhasesFollowInOrder := by
  unfold Obligations.PhasesFollowInOrder
  refine ⟨rfl, fun s t h => ?_⟩
  rw [step_next_cu h]
  exact ⟨congrArg Phase.next, congrArg Phase.next, congrArg Phase.next, congrArg Phase.next⟩

/-! ## The four pulses of an instruction (R128, R131, R132) -/

/-- Settles O19: the steps of Fetch1, Fetch2 and Decode one after another, then the Execute pulse. -/
theorem stepRunsTheDecodedInstruction : Obligations.StepRunsTheDecodedInstruction := by
  unfold Obligations.StepRunsTheDecodedInstruction
  intro s d w0 w1 hn hf hc h0 h1 hd
  refine ⟨_, _, _, step_fetch1_of_read hn hf hc h0, step_fetch2_of_read hn hf rfl h1,
    step_decode_of_ok hn hf rfl hd, rfl, ?_, ?_⟩
  · rintro i rfl; exact step_execute hn rfl
  · rintro e rfl; exact step_execute hn rfl

/-! ## Conditions (R129, R130) -/

/-- A reserved condition raises its DecodeError with the fault record as the only change, whatever the routine is. -/
theorem executePhase_reserved_stopped {c : Cond} (h : CondReserved c) (r : State → Run) (s : State) :
    ∃ f, executePhase c r s = .fault f ∧ f.kind = some (.decodeError .reservedCondition) ∧
      f.stopped = { s with fault := some ⟨.decodeError .reservedCondition, s.cu, s.pc, s.ira, s.irb⟩ } :=
  ⟨_, executePhase_reserved h, raiseFault_kind .., raiseFault_stopped ..⟩

/-- Settles O24: `exec` and `execExtra` are Execute phases, so a false condition ends them and a reserved one faults
before their routine runs. -/
theorem falseOrReservedConditionRunsNothing : Obligations.FalseOrReservedConditionRunsNothing := by
  unfold Obligations.FalseOrReservedConditionRunsNothing
  simp only [exec_eq, execExtra]
  exact ⟨fun i s h => executePhase_false h, fun e s h => executePhase_false h,
    fun i s h => executePhase_reserved_stopped h _ s, fun e s h => executePhase_reserved_stopped h _ s⟩

/-- Settles O23: the table of `condHolds`, and the fault of `executePhase_reserved_stopped`. -/
theorem conditionsTestTheirFlag : Obligations.ConditionsTestTheirFlag := by
  unfold Obligations.ConditionsTestTheirFlag
  refine ⟨fun i s h => ?_, fun f => ⟨rfl, rfl, rfl, rfl, rfl, rfl, rfl, rfl, rfl⟩⟩
  obtain ⟨e, he, hkind, -⟩ := executePhase_reserved_stopped h (routineOf i s) s
  exact ⟨e, (exec_eq i s).trans he, hkind⟩

end Sys2Proof.Machine
end

section
/-! SUPPORT. AOPR and AOPI: the whole state they complete with, and what they leave unchanged
(43_alu_instructions.md R133, R134). -/

namespace Sys2Proof.Machine

open Sys2Proof

/-- The state AOPR and AOPI complete with, `srcB` being the cell of operand B. -/
def State.aluDone (s : State) (d : RegCode) (srcB : BusAddr) (alu : Microcode) : State :=
  { s with
    gpr := s.gpr.set d.toNat (compute (s.reg d) (s.readCell srcB) alu).1
    flags := (compute (s.reg d) (s.readCell srcB) alu).2
    aluA := s.reg d, selA := .gp d, aluB := s.readCell srcB, selB := srcB, aluOp := alu, selW := .void
    fe := false, cu := .fetch1 }

/-- AOPR with a true condition completes where both its fields name registers (R133). -/
theorem exec_aopr_of_named {c : Cond} {d r : RegCode} {s : State} (hc : CondTrue c s)
    (hd : s.config.isGpr d = true) (hr : s.config.isGpr r = true) (alu : Microcode) :
    exec (.aopr c d r alu) s = .next (s.aluDone d (.gp r) alu) := by
  rw [exec_eq, executePhase_true (by exact hc), routineOf, aluRoutine, regOperand, regOperand,
    uop_alu_reg rfl (by exact hd) (by exact hr)]
  rfl

/-- AOPI with a true condition completes where its destination names a register (R134). -/
theorem exec_aopi_of_named {c : Cond} {d : RegCode} {s : State} (hc : CondTrue c s)
    (hd : s.config.isGpr d = true) (alu : Microcode) (imm : Word) :
    exec (.aopi c d alu imm) s = .next (s.aluDone d .irb alu) := by
  rw [exec_eq, executePhase_true (by exact hc), routineOf, aluRoutine, regOperand, highWordOperand,
    uop_alu_imm rfl (by exact hd)]
  rfl

/-- Settles O25, by `exec_aopr_of_named`. -/
theorem aoprComputesIntoDest : Obligations.AoprComputesIntoDest := by
  unfold Obligations.AoprComputesIntoDest
  exact fun c d r alu s hc hd hr => exec_aopr_of_named hc hd hr alu

/-- Settles O26, by `exec_aopi_of_named`: IRB is the cell of operand B. -/
theorem aopiComputesIntoDest : Obligations.AopiComputesIntoDest := by
  unfold Obligations.AopiComputesIntoDest
  rintro c d alu imm s hc hd rfl
  exact exec_aopi_of_named hc hd alu s.irb

/-- `i` is AOPR or AOPI with this condition and destination. -/
def IsAluInto (i : Instr) (c : Cond) (d : RegCode) : Prop :=
  (∃ r alu, i = .aopr c d r alu) ∨ (∃ alu imm, i = .aopi c d alu imm)

/-- The routine of an ALU instruction sets `fe` itself, so its effect is the one from `fe` false whatever `fe` was. -/
theorem IsAluInto.routine_ok {i : Instr} {c : Cond} {d : RegCode} {s u : State} (hi : IsAluInto i c d)
    (h : routineOf i s s = .ok u) : RoutineEffect i { s with fe := false } u := by
  rcases hi with ⟨r, alu, rfl⟩ | ⟨alu, imm, rfl⟩
  · exact Machine.routine_ok rfl h
  · exact Machine.routine_ok rfl h

/-- An ALU instruction that answers a next state had a false condition and changed nothing but `cu`, or completed. -/
theorem IsAluInto.exec_next {i : Instr} {c : Cond} {d : RegCode} {s t : State} (hi : IsAluInto i c d)
    (h : exec i s = .next t) :
    (CondFalse c s ∧ t = { s with cu := .fetch1 }) ∨ (CondTrue c s ∧ ∃ srcB alu, t = s.aluDone d srcB alu) := by
  have hcond : i.cond = c := by rcases hi with ⟨r, alu, rfl⟩ | ⟨alu, imm, rfl⟩ <;> rfl
  rw [exec_eq, hcond] at h
  refine (executePhase_next h).imp_right fun ⟨hc, u, hu, ht⟩ => ⟨hc, ?_⟩
  have heff := hi.routine_ok hu
  rcases hi with ⟨r, alu, rfl⟩ | ⟨alu, imm, rfl⟩
  · obtain ⟨-, -, rfl⟩ := heff
    exact ⟨.gp r, alu, ht⟩
  · obtain ⟨-, rfl⟩ := heff
    exact ⟨.irb, alu, ht⟩

theorem aluDone_reg_other (s : State) {q d : RegCode} (srcB : BusAddr) (alu : Microcode) (h : q ≠ d) :
    (s.aluDone d srcB alu).reg q = s.reg q :=
  reg_set_other s.gpr _ h

/-- Settles O35, by the two ways an ALU instruction answers a next state (`IsAluInto.exec_next`). -/
theorem aluInstructionFrame : Obligations.AluInstructionFrame := by
  unfold Obligations.AluInstructionFrame
  intro i c d s t hi h
  rcases IsAluInto.exec_next hi h with ⟨-, rfl⟩ | ⟨hc, srcB, alu, rfl⟩
  · exact ⟨fun _ _ => rfl, fun _ => ⟨rfl, rfl⟩, fun _ => rfl, rfl, rfl, rfl, rfl, rfl, rfl, rfl, rfl, rfl, rfl⟩
  · refine ⟨fun q hq => aluDone_reg_other s srcB alu hq, fun hfalse => ?_,
      fun _ => rfl, rfl, rfl, rfl, rfl, rfl, rfl, rfl, rfl, rfl, rfl⟩
    rw [CondFalse, hc] at hfalse
    cases hfalse

end Sys2Proof.Machine
end

section
/-! SUPPORT. LOADR, LOAD, STORR and STORE: the whole state they complete with, the fault they end in, and what they leave
unchanged (44_memory_instructions.md R135 to R138). -/

namespace Sys2Proof.Machine

open Sys2Proof

/-! ## The access: the micro-operation after MAR is set -/

/-- The state a load completes with: GPd and MDR are the Word `w` at `a`, and the A latch and selection are what forming
the address left there. -/
def State.loadDone (s : State) (d : RegCode) (a w latchA : Word) (selA : BusAddr) : State :=
  { s with
    gpr := s.gpr.set d.toNat w, mar := a, mdr := w
    aluA := latchA, selA := selA, aluB := w, selB := .mdr, aluOp := transferB, selW := .void
    fe := false, cu := .fetch1 }

/-- The state a store completes with: GPd is at `a` and, where `a` is in the console region, an event; the B latch and
selection are what forming the address left there. -/
def State.storeDone (s : State) (d : RegCode) (a latchB : Word) (selB : BusAddr) : State :=
  { s with
    mem := s.mem.write a.toNat (s.reg d)
    consoleOut := s.consoleOut ++ storeEvents s.config.regions a (s.reg d)
    mar := a, mdr := s.reg d
    aluA := s.reg d, selA := .gp d, aluB := latchB, selB := selB, aluOp := transferA, selW := .void
    fe := false, cu := .fetch1 }

theorem gp_writebackListed {k : Config} {d : RegCode} (hd : k.isGpr d = true) :
    (BusAddr.gp d).writebackListed k = true := by
  simp [BusAddr.writebackListed, BusAddr.access, hd]

/-- A load of a Word that can be read completes. -/
theorem loadIntoReg_completes {s : State} {d : RegCode} {w : Word} (hf : s.fe = false) (hd : s.config.isGpr d = true)
    (hm : memRead s s.mar = .ok w) :
    (loadIntoReg d s).finish State.endExecute = .next (s.loadDone d s.mar w s.aluA s.selA) := by
  rw [loadIntoReg, regOperand, uop_mdr_to hf (gp_writebackListed hd) (by simp) hm]
  rfl

/-- A load of a Word that cannot be read ends in the fault of the MemRead, MAR being the address. -/
theorem loadIntoReg_faults {s : State} {d : RegCode} {k : FaultKind} (hf : s.fe = false) (hd : s.config.isGpr d = true)
    (hm : memRead s s.mar = .error k) :
    ∃ f, (loadIntoReg d s).finish State.endExecute = .fault f ∧ f.kind = some k ∧ f.stopped.mar = s.mar := by
  rw [loadIntoReg, regOperand, uop_mdr_to_fault hf (gp_writebackListed hd) (by simp) hm]
  refine ⟨_, rfl, raiseFault_kind .., ?_⟩
  simp only [raiseFault_stopped]
  exact partialWrites_mar rfl

/-- A store to a backed address completes. -/
theorem storeFromReg_completes {s : State} {d : RegCode} (hf : s.fe = false) (hd : s.config.isGpr d = true)
    (hb : backed s.config.regions s.mar = true) :
    (storeFromReg d s).finish State.endExecute = .next (s.storeDone d s.mar s.aluB s.selB) := by
  rw [storeFromReg, regOperand, uop_gp_to_mdr hf hd hb]
  rfl

/-- A store to an address no backing word holds ends in an AddressFault, with memory unchanged and MAR the address. -/
theorem storeFromReg_faults {s : State} {d : RegCode} (hf : s.fe = false) (hd : s.config.isGpr d = true)
    (hb : backed s.config.regions s.mar = false) :
    ∃ f, (storeFromReg d s).finish State.endExecute = .fault f ∧ f.kind = some (.addressFault s.mar) ∧
      f.stopped.mar = s.mar ∧ f.stopped.mem = s.mem := by
  rw [storeFromReg, regOperand, uop_gp_to_mdr_fault hf hd hb]
  refine ⟨_, rfl, raiseFault_kind .., ?_⟩
  simp only [raiseFault_stopped]
  exact ⟨partialWrites_mar rfl, partialWrites_mem ..⟩

/-! ## The whole routine: the address, then the access (R135 to R138) -/

/-- Where forming the address completes, an Execute phase with a true condition is the access in the state it leaves. -/
theorem executePhase_access {c : Cond} {address access : State → Run} {s v : State} (hc : CondTrue c s)
    (ha : address s = .ok v) :
    executePhase c (fun t => (address t).andThen access) s = (access v).finish State.endExecute := by
  rw [executePhase_true hc, ha, Run.andThen_ok]

/-- A named register's address is always set. -/
theorem addressFromReg_eq {s : State} {r : RegCode} (hf : s.fe = false) (hr : s.config.isGpr r = true) :
    addressFromReg r s
      = .ok { s with aluA := s.reg r, selA := .gp r, aluOp := transferA, mar := s.reg r, selW := .void } := by
  rw [addressFromReg, regOperand, uop_gp_to_mar hf hr]

/-- Settles O27: MAR is set from GPr, and the load that follows completes or faults as its MemRead does. -/
theorem loadrLoadsThroughRegister : Obligations.LoadrLoadsThroughRegister := by
  unfold Obligations.LoadrLoadsThroughRegister
  intro c d r alu s hc hd hr hf
  rw [exec_eq, routineOf, Instr.cond, executePhase_access hc (addressFromReg_eq hf hr)]
  exact ⟨fun w hw => loadIntoReg_completes hf hd hw, fun k hk => loadIntoReg_faults hf hd hk⟩

/-- Settles O28: MAR is set from GPr, and the store that follows completes exactly where the address is backed. -/
theorem storrStoresThroughRegister : Obligations.StorrStoresThroughRegister := by
  unfold Obligations.StorrStoresThroughRegister
  intro c d r alu s hc hd hr hf
  rw [exec_eq, routineOf, Instr.cond, executePhase_access hc (addressFromReg_eq hf hr)]
  exact ⟨fun hb => storeFromReg_completes hf hd hb, fun hb => storeFromReg_faults hf hd hb⟩

/-- Settles O29: MAR is set from IRB, which holds the immediate, and the load follows as in LOADR. -/
theorem loadLoadsAbsolute : Obligations.LoadLoadsAbsolute := by
  unfold Obligations.LoadLoadsAbsolute
  rintro c d alu imm s hc hd hf rfl
  rw [exec_eq, routineOf, Instr.cond, executePhase_access hc (addressFromImm_eq hf)]
  exact ⟨fun w hw => loadIntoReg_completes hf hd hw, fun k hk => loadIntoReg_faults hf hd hk⟩

/-- Settles O30: at a backed address by `exec_store_of_backed`; at any other, MAR is set from IRB, which holds the
immediate, and the store that follows faults. -/
theorem storeStoresAbsolute : Obligations.StoreStoresAbsolute := by
  unfold Obligations.StoreStoresAbsolute
  rintro c d alu imm s hc hd hf rfl
  refine ⟨fun hb => exec_store_of_backed hf hc hd hb, fun hb => ?_⟩
  rw [exec_eq, routineOf, Instr.cond, executePhase_access hc (addressFromImm_eq hf)]
  exact storeFromReg_faults hf hd hb

/-! ## Frames (R130, R135 to R138) -/

/-- `i` is LOADR or LOAD with this condition and destination. -/
def IsLoadInto (i : Instr) (c : Cond) (d : RegCode) : Prop :=
  (∃ r alu, i = .loadr c d r alu) ∨ (∃ alu imm, i = .load c d alu imm)

/-- An instruction that answers a next state had a false condition and changed nothing but `cu`, or its routine ran to
its end. -/
theorem exec_next {i : Instr} {s t : State} (hf : s.fe = false) (h : exec i s = .next t) :
    (CondFalse i.cond s ∧ t = { s with cu := .fetch1 }) ∨
    (CondTrue i.cond s ∧ ∃ u, RoutineEffect i s u ∧ t = u.endExecute) := by
  rw [exec_eq] at h
  exact (executePhase_next h).imp_right fun ⟨hc, u, hu, ht⟩ => ⟨hc, u, routine_ok hf hu, ht⟩

/-- A load that ran to its end. -/
theorem RoutineEffect.endExecute_load {i : Instr} {c : Cond} {d : RegCode} {s u : State} (h : RoutineEffect i s u)
    (hi : IsLoadInto i c d) : ∃ a w latchA selA, u.endExecute = s.loadDone d a w latchA selA := by
  rcases hi with ⟨r, alu, rfl⟩ | ⟨alu, imm, rfl⟩
  · obtain ⟨-, -, w, -, rfl⟩ := h
    exact ⟨s.reg r, w, s.reg r, .gp r, rfl⟩
  · obtain ⟨-, w, -, rfl⟩ := h
    exact ⟨s.irb, w, s.aluA, s.selA, rfl⟩

/-- A store that ran to its end. -/
theorem RoutineEffect.endExecute_store {i : Instr} {d : RegCode} {a : Word} {s u : State} (h : RoutineEffect i s u)
    (hi : IsStoreTo i s d a) :
    backed s.config.regions a = true ∧ ∃ latchB selB, u.endExecute = s.storeDone d a latchB selB := by
  rcases hi with ⟨c, r, alu, rfl, rfl⟩ | ⟨c, alu, imm, rfl, rfl⟩
  · obtain ⟨-, -, hb, rfl⟩ := h
    exact ⟨hb, s.aluB, s.selB, rfl⟩
  · obtain ⟨-, hb, rfl⟩ := h
    exact ⟨hb, s.irb, .irb, rfl⟩

/-- A load changes no register but its destination. -/
theorem loadDone_reg_other (s : State) {q d : RegCode} (a w latchA : Word) (selA : BusAddr) (h : q ≠ d) :
    (s.loadDone d a w latchA selA).reg q = s.reg q :=
  reg_set_other s.gpr w h

/-- A store changes no memory word but the one at its address. -/
theorem memRead_storeDone_other {s : State} {a b : Word} (hb : backed s.config.regions a = true) (h : b ≠ a)
    (d : RegCode) (latchB : Word) (selB : BusAddr) : memRead (s.storeDone d a latchB selB) b = memRead s b := by
  have hother := memRead_memWrite_other (memWrite_of_backed (s.reg d) hb) h
  exact (memRead_congr rfl rfl b).trans hother

theorem not_condFalse_of_condTrue {c : Cond} {s : State} (h : CondTrue c s) : ¬ CondFalse c s := by
  simp [CondFalse, h]

/-- Settles O36, by the two ways a load answers a next state (`exec_next`, `RoutineEffect.endExecute_load`). -/
theorem loadFrame : Obligations.LoadFrame := by
  unfold Obligations.LoadFrame
  intro i c d s t hf hi h
  rcases exec_next hf h with ⟨-, rfl⟩ | ⟨-, u, hu, rfl⟩
  · exact ⟨fun _ _ => rfl, rfl, fun _ => rfl, rfl, rfl, rfl, rfl, rfl, hf, rfl, rfl, rfl⟩
  · obtain ⟨a, w, latchA, selA, ht⟩ := hu.endExecute_load hi
    rw [ht]
    exact ⟨fun q hq => loadDone_reg_other s a w latchA selA hq, rfl, fun _ => rfl, rfl, rfl, rfl, rfl, rfl, rfl, rfl, rfl,
      rfl⟩

/-- Settles O37, by the two ways a store answers a next state (`exec_next`, `RoutineEffect.endExecute_store`). -/
theorem storeFrame : Obligations.StoreFrame := by
  unfold Obligations.StoreFrame
  intro i c d stored s t hf hi h
  have hstore : IsStoreTo i s d stored :=
    hi.imp (fun ⟨r, alu, hr⟩ => ⟨c, r, alu, hr⟩) (fun ⟨alu, imm, himm⟩ => ⟨c, alu, imm, himm⟩)
  have hcond : i.cond = c := by
    rcases hi with ⟨r, alu, rfl, -⟩ | ⟨alu, imm, rfl, -⟩ <;> rfl
  rw [← hcond]
  rcases exec_next hf h with ⟨hfalse, rfl⟩ | ⟨htrue, u, hu, rfl⟩
  · exact ⟨fun _ => rfl, rfl, fun _ _ => rfl, fun _ => ⟨rfl, rfl⟩,
      fun htrue => absurd hfalse (not_condFalse_of_condTrue htrue), rfl, rfl, rfl, hf, rfl, rfl, rfl⟩
  · obtain ⟨hb, latchB, selB, ht⟩ := hu.endExecute_store hstore
    rw [ht]
    exact ⟨fun _ => rfl, rfl, fun _ ha => memRead_storeDone_other hb ha d latchB selB,
      fun hfalse => absurd hfalse (not_condFalse_of_condTrue htrue), fun _ => rfl, rfl, rfl, rfl, rfl, rfl, rfl, rfl⟩

end Sys2Proof.Machine
end

section
/-! SUPPORT. JMP, B and NOP: the whole state they complete with; and what JMP, B, NOP, CLZ, CLOF and CLNG leave unchanged
(45_control_transfer.md R139 to R141, 46_flag_clear.md R143 to R145). -/

namespace Sys2Proof.Machine

open Sys2Proof

/-- The state a jump's routine leaves: PC is the target in IRB, fed through the B latch. -/
def State.jumped (s : State) : State :=
  { s with pc := s.irb, aluB := s.irb, selB := .irb, aluOp := transferB, selW := .void }

theorem jumpRoutine_eq {s : State} (hf : s.fe = false) : jumpRoutine s = .ok s.jumped :=
  uop_irb_to_pc hf

/-- The Execute phase of a jump with a true condition completes, whatever the target. -/
theorem executePhase_jumpRoutine {c : Cond} {s : State} (hc : CondTrue c s) (hf : s.fe = false) :
    executePhase c jumpRoutine s = .next s.jumped.endExecute := by
  rw [executePhase_true hc, jumpRoutine_eq hf, Run.finish]

/-- Settles O31: JMP and B are the one jump routine (`executePhase_jumpRoutine`), and IRB holds the target. -/
theorem jumpsSetPcToTarget : Obligations.JumpsSetPcToTarget := by
  unfold Obligations.JumpsSetPcToTarget
  rintro c target s hc hf rfl
  have hjump := executePhase_jumpRoutine hc hf
  exact ⟨(exec_eq (.jmp c s.irb) s).trans hjump, (exec_eq (.b c s.irb) s).trans hjump⟩

/-- Settles O32: the routine of NOP ends in the state it began in. -/
theorem nopHasNoEffect : Obligations.NopHasNoEffect := by
  unfold Obligations.NopHasNoEffect
  intro c target s hc
  exact (exec_eq (.nop c target) s).trans (executePhase_true hc)

/-- Of JMP, B, NOP, CLZ, CLOF and CLNG, a routine that ran to its end is NOP's and left the state as it was, or is a
jump's. -/
theorem RoutineEffect.unchanged_or_jumped {i : Instr} {s u : State} (h : RoutineEffect i s u)
    (hi : i.opcode ∈ [Opcode.jmp, .b, .nop, .clz, .clof, .clng]) :
    u = s ∨ (i.opcode ∈ [Opcode.jmp, .b] ∧ u = s.jumped) := by
  cases i with
  | nop => exact .inl h
  | jmp | b => exact .inr ⟨by simp [Instr.opcode], h⟩
  | clz | clof | clng => cases h
  | aopr | aopi | loadr | storr | load | store => simp [Instr.opcode] at hi

/-- Settles O38, by the two ways an instruction answers a next state (`exec_next`): `cu` alone moved, or the routine ran
to its end, and then `RoutineEffect.unchanged_or_jumped`. -/
theorem jumpNopAndClearFrame : Obligations.JumpNopAndClearFrame := by
  unfold Obligations.JumpNopAndClearFrame
  intro i s t hf hi h
  rcases exec_next hf h with ⟨-, rfl⟩ | ⟨-, u, hu, rfl⟩
  · exact ⟨fun _ => rfl, rfl, fun _ => rfl, rfl, rfl, rfl, rfl, rfl, rfl, fun _ => rfl, hf, rfl, rfl, rfl⟩
  · rcases hu.unchanged_or_jumped hi with rfl | ⟨hjump, rfl⟩
    · exact ⟨fun _ => rfl, rfl, fun _ => rfl, rfl, rfl, rfl, rfl, rfl, rfl, fun _ => rfl, rfl, rfl, rfl, rfl⟩
    · exact ⟨fun _ => rfl, rfl, fun _ => rfl, rfl, rfl, rfl, rfl, rfl, rfl, fun hno => absurd hjump hno, rfl, rfl, rfl,
        rfl⟩

end Sys2Proof.Machine
end

section
/-! SUPPORT. CLZ, CLOF, CLNG and the `EXTRA_UNIMPLEMENTED` opcodes with a true condition: the fault, and the state it
carries (46_flag_clear.md R143 to R146). -/

namespace Sys2Proof.Machine

open Sys2Proof

/-- The Execute phase of an opcode without a meaning, its condition true, raises UnimplementedOpcode in the state it began
in, so the stopped state has every flag and cell of that state. -/
theorem executePhase_unimplementedRoutine {c : Cond} {s : State} (hc : CondTrue c s) (v : OpValue) :
    ∃ f, executePhase c (unimplementedRoutine v) s = .fault f ∧ f.kind = some (.unimplementedOpcode v) ∧
      f.stopped = { s with fault := some (faultRecord (.unimplementedOpcode v) s) } :=
  ⟨raiseFault (.unimplementedOpcode v) s, executePhase_true hc, raiseFault_kind .., raiseFault_stopped ..⟩

/-- Settles O33: each of these opcodes is the one routine with its own opcode value
(`executePhase_unimplementedRoutine`). -/
theorem unimplementedOpcodesAreExplicit : Obligations.UnimplementedOpcodesAreExplicit := by
  unfold Obligations.UnimplementedOpcodesAreExplicit
  intro c d r alu s hc
  have hfault := executePhase_unimplementedRoutine hc
  refine ⟨?_, ?_, ?_, ?_⟩
  · rw [exec_eq]
    exact hfault s.config.opcodes.clz
  · rw [exec_eq]
    exact hfault s.config.opcodes.clof
  · rw [exec_eq]
    exact hfault s.config.opcodes.clng
  · rintro e rfl
    exact hfault e.value

end Sys2Proof.Machine
end

section
/-! SUPPORT. What a step that faults leaves: each pulse raises its fault in a state that keeps `cu`, the memory, the console
events and the parameters, and the faulted state goes no further (60_exceptions.md R149, R150). -/

namespace Sys2Proof.Machine

open Sys2Proof

/-! ## The fault of a pulse (42_control_unit.md R123) -/

/-- A fault of 60_exceptions.md R148, raised in a state that keeps what a fault may not change since the pulse began. -/
def RaisedFrom (s : State) (f : Fault) : Prop := ∃ k u, f = raiseFault k u ∧ Untouched s u

theorem Untouched.refl (s : State) : Untouched s s := ⟨rfl, rfl, rfl, rfl, rfl⟩

/-- The fault of a pulse is the one its micro-operations raised. -/
theorem raisedFrom_of_finish {s : State} {r : Run} {g : State → State} {f : Fault}
    (h : r.finish g = .fault f) (hr : ∀ k u, r = .raised k u → Untouched s u) : RaisedFrom s f := by
  obtain ⟨k, u, hu, rfl⟩ := Run.finish_eq_fault h
  exact ⟨k, u, rfl, hr k u hu⟩

theorem fetch1Pulse_raisedFrom {s : State} {f : Fault} (hf : s.fe = false) (h : fetch1Pulse s = .fault f) :
    RaisedFrom s f := by
  rw [fetch1Pulse, uop_pc_to_mar hf, Run.andThen_ok] at h
  exact raisedFrom_of_finish h fun k u hu => (uop_raised_untouched hu :)

theorem fetch2Pulse_raisedFrom {s : State} {f : Fault} (hf : s.fe = false) (h : fetch2Pulse s = .fault f) :
    RaisedFrom s f := by
  rw [fetch2Pulse, uop_pcInc_to_mar hf, Run.andThen_ok] at h
  exact raisedFrom_of_finish h fun k u hu => (uop_raised_untouched hu :)

/-- The checks of Decode raise in the state they look at. -/
theorem decodeCurrent_raised {s u : State} {k : FaultKind} (h : decodeCurrent s = .raised k u) : u = s := by
  unfold decodeCurrent at h
  split at h <;> cases h
  rfl

theorem decodePulse_raisedFrom {s : State} {f : Fault} (hf : s.fe = false) (h : decodePulse s = .fault f) :
    RaisedFrom s f := by
  rw [decodePulse_eq hf] at h
  refine raisedFrom_of_finish h fun k u hu => ?_
  rw [decodeCurrent_raised hu]
  exact Untouched.refl s

/-- An Execute phase raises ReservedCondition in the state it began in, or what its routine raised. -/
theorem executePhase_raisedFrom {c : Cond} {r : State → Run} {s : State} {f : Fault}
    (h : executePhase c r s = .fault f) (hr : ∀ k u, r s = .raised k u → Untouched s u) : RaisedFrom s f := by
  rcases executePhase_fault h with ⟨-, rfl⟩ | ⟨-, k, u, hu, rfl⟩
  · exact ⟨_, s, rfl, Untouched.refl s⟩
  · exact ⟨k, u, rfl, hr k u hu⟩

theorem exec_raisedFrom {i : Instr} {s : State} {f : Fault} (hf : s.fe = false) (h : exec i s = .fault f) :
    RaisedFrom s f := by
  rw [exec_eq] at h
  exact executePhase_raisedFrom h fun k u hu => routine_raised hf hu

theorem execExtra_raisedFrom {e : ExtraInstr} {s : State} {f : Fault} (h : execExtra e s = .fault f) :
    RaisedFrom s f := by
  refine executePhase_raisedFrom h fun k u hu => ?_
  cases hu
  exact Untouched.refl s

/-- Everything a step that faults can do, from a state that meets the invariant: neither of the two stops of `step` itself
occurs, there being no fault record yet and, in Execute, a current instruction. -/
theorem step_raisedFrom {s : State} {f : Fault} (hi : MachineInv s) (h : step s = .fault f) : RaisedFrom s f := by
  cases hc : s.cu with
  | fetch1 => rw [step_fetch1 hi.noFault hc] at h; exact fetch1Pulse_raisedFrom hi.flagEnable h
  | fetch2 => rw [step_fetch2 hi.noFault hc] at h; exact fetch2Pulse_raisedFrom hi.flagEnable h
  | decode => rw [step_decode hi.noFault hc] at h; exact decodePulse_raisedFrom hi.flagEnable h
  | execute =>
    obtain ⟨d, hcur, -⟩ := hi.current hc
    rw [step_execute hi.noFault hc, executePulse, hcur] at h
    cases d with
    | core i => exact exec_raisedFrom hi.flagEnable h
    | extra e => exact execExtra_raisedFrom h

/-! ## The faulted state (60_exceptions.md R149, R150) -/

theorem step_of_faulted {s : State} {r : FaultRecord} (h : s.fault = some r) : step s = .fault (.alreadyFaulted s) := by
  simp only [step, h]

theorem atStop_of_faulted {s : State} {r : FaultRecord} (h : s.fault = some r) (stopPc : Word) :
    s.atStop stopPc = false := by
  simp [State.atStop, h]

/-- Settles O22: the step raised its fault in a state that keeps `cu`, memory, console events and parameters
(`step_raisedFrom`), and the record `raiseFault` puts there bars any further step and any final state. -/
theorem faultIsRecordedAndFinal : Obligations.FaultIsRecordedAndFinal := by
  unfold Obligations.FaultIsRecordedAndFinal
  intro s hi f h
  obtain ⟨k, u, rfl, hcu, hmem, hout, hconfig, -⟩ := step_raisedFrom hi h
  have hrecord : (raiseFault k u).stopped.fault = some (faultRecord k u) := by rw [raiseFault_stopped]
  refine ⟨k, raiseFault_kind k u, ?_, ?_, ?_, ?_, ?_, step_of_faulted hrecord, atStop_of_faulted hrecord⟩ <;>
    rw [raiseFault_stopped]
  · rw [faultRecord, hcu]
  · exact hcu
  · exact hmem
  · exact hout
  · exact hconfig

end Sys2Proof.Machine
end

section
/-! SUPPORT. What every step keeps: the parameters, the fault record and the machine's invariant; and which phase the
control unit is in after any number of pulses (70_reset_and_hazards.md R168, R175, R177, R179). -/

namespace Sys2Proof.Machine

open Sys2Proof

/-! ## What no sequence of micro-operations changes (41_fabric.md R115, 70_reset_and_hazards.md R179) -/

/-- From `s` to `t` the parameters and the fault record stay, and so does a Writeback destination that is VOID. -/
structure FabricKept (s t : State) : Prop where
  config : t.config = s.config
  fault : t.fault = s.fault
  selW : s.selW = .void → t.selW = .void

theorem FabricKept.refl (s : State) : FabricKept s s := ⟨rfl, rfl, id⟩

theorem FabricKept.trans {s t u : State} (h : FabricKept s t) (h' : FabricKept t u) : FabricKept s u :=
  ⟨h'.config.trans h.config, h'.fault.trans h.fault, h'.selW ∘ h.selW⟩

/-- A sequence of micro-operations that keeps these wherever it runs to its end. -/
def KeepsFabric (f : State → Run) : Prop := ∀ s t, f s = .ok t → FabricKept s t

theorem keepsFabric_ok : KeepsFabric Run.ok := by
  rintro s t ⟨⟩
  exact .refl s

theorem keepsFabric_uop {srcA srcB : Option BusAddr} {op : Microcode} {dst : BusAddr} :
    KeepsFabric (uop srcA srcB op dst) := by
  intro s t h
  obtain ⟨hconfig, -, -, -, hfault, hselW⟩ := uop_ok_frame h
  exact ⟨hconfig, hfault, fun _ => hselW⟩

theorem KeepsFabric.andThen {f g : State → Run} (hf : KeepsFabric f) (hg : KeepsFabric g) :
    KeepsFabric fun s => (f s).andThen g := by
  intro s t h
  obtain ⟨u, hu, ht⟩ := Run.andThen_eq_ok h
  exact (hf s u hu).trans (hg u t ht)

theorem keepsFabric_decodeCurrent : KeepsFabric decodeCurrent := by
  intro s t h
  unfold decodeCurrent at h
  split at h <;> cases h
  exact ⟨rfl, rfl, id⟩

/-- The micro-operation of AOPR and AOPI, with `fe` set before it. -/
theorem keepsFabric_aluRoutine {d : RegCode} {srcB : BusAddr} {alu : Microcode} :
    KeepsFabric (aluRoutine d srcB alu) := by
  intro s t h
  obtain ⟨hconfig, hfault, hselW⟩ := keepsFabric_uop { s with fe := true } t h
  exact ⟨hconfig, hfault, hselW⟩

theorem keepsFabric_jumpRoutine : KeepsFabric jumpRoutine := fun s => keepsFabric_uop s

theorem keepsFabric_addressFromImm : KeepsFabric addressFromImm := fun s => keepsFabric_uop s

theorem keepsFabric_unimplementedRoutine {v : OpValue} : KeepsFabric (unimplementedRoutine v) := by
  rintro s t ⟨⟩

theorem keepsFabric_routineOf (i : Instr) (s : State) : KeepsFabric (routineOf i s) := by
  cases i with
  | nop => exact keepsFabric_ok
  | jmp | b => exact keepsFabric_jumpRoutine
  | aopr | aopi => exact keepsFabric_aluRoutine
  | loadr | storr => exact keepsFabric_uop.andThen keepsFabric_uop
  | load | store => exact keepsFabric_addressFromImm.andThen keepsFabric_uop
  | clz | clof | clng => exact keepsFabric_unimplementedRoutine

/-- The end of a phase before Execute moves `cu` alone. -/
theorem KeepsFabric.of_finish {f : State → Run} (hf : KeepsFabric f) {p : Phase} {s t : State}
    (h : (f s).finish (fun u => { u with cu := p }) = .next t) : FabricKept s t := by
  obtain ⟨u, hu, rfl⟩ := Run.finish_eq_next h
  exact (hf s u hu).trans ⟨rfl, rfl, id⟩

/-- Nor does an Execute phase change any of this by its end or where its condition is false. -/
theorem KeepsFabric.of_executePhase {f : State → Run} (hf : KeepsFabric f) {c : Cond} {s t : State}
    (h : executePhase c f s = .next t) : FabricKept s t := by
  rcases executePhase_next h with ⟨-, rfl⟩ | ⟨-, u, hu, rfl⟩
  · exact ⟨rfl, rfl, id⟩
  · exact (hf s u hu).trans ⟨rfl, rfl, id⟩

/-- Every step that answers a next state, from every state, keeps what its micro-operations keep. -/
theorem fabricKept_of_step {s t : State} (h : step s = .next t) : FabricKept s t := by
  obtain ⟨-, ⟨-, h⟩ | ⟨-, h⟩ | ⟨-, h⟩ | ⟨-, ⟨i, -, h⟩ | ⟨e, -, h⟩⟩⟩ := step_next h
  · exact (keepsFabric_uop.andThen keepsFabric_uop).of_finish h
  · exact (keepsFabric_uop.andThen keepsFabric_uop).of_finish h
  · exact ((keepsFabric_uop.andThen keepsFabric_uop).andThen keepsFabric_decodeCurrent).of_finish h
  · rw [exec_eq] at h
    exact (keepsFabric_routineOf i s).of_executePhase h
  · exact keepsFabric_unimplementedRoutine.of_executePhase h

/-- Settles O47, by `fabricKept_of_step`. -/
theorem parametersNeverChange : Obligations.ParametersNeverChange := by
  unfold Obligations.ParametersNeverChange
  exact fun s t h => (fabricKept_of_step h).config

/-! ## The flags (10_state.md R26, 40_alu.md R91, R92) -/

/-- A routine leaves the flags, or is an ALU instruction's and commits those of its result. -/
theorem RoutineEffect.flags {i : Instr} {s u : State} (h : RoutineEffect i s u) :
    u.flags = s.flags ∨ (i.opcode ∈ [Opcode.aopr, .aopi] ∧ ∃ x y op, u.flags = aluFlags x y op) := by
  cases i with
  | nop | jmp | b => cases h; exact .inl rfl
  | aopr c d r a => obtain ⟨-, -, rfl⟩ := h; exact .inr ⟨by simp [Instr.opcode], _, _, a, rfl⟩
  | aopi c d a imm => obtain ⟨-, rfl⟩ := h; exact .inr ⟨by simp [Instr.opcode], _, _, a, rfl⟩
  | loadr c d r a => obtain ⟨-, -, w, -, rfl⟩ := h; exact .inl rfl
  | load c d a imm => obtain ⟨-, w, -, rfl⟩ := h; exact .inl rfl
  | storr c d r a => obtain ⟨-, -, -, rfl⟩ := h; exact .inl rfl
  | store c d a imm => obtain ⟨-, -, rfl⟩ := h; exact .inl rfl
  | clz | clof | clng => cases h

/-- The carry a routine leaves is the overflow, where it was before. -/
theorem RoutineEffect.carry {i : Instr} {s u : State} (h : RoutineEffect i s u)
    (hs : s.flags.carry = s.flags.overflow) : u.flags.carry = u.flags.overflow := by
  rcases h.flags with hf | ⟨-, x, y, op, hf⟩ <;> rw [hf]
  · exact hs
  · exact aluFlags_carry x y op

/-- Settles O43, by the cases of a step: only a routine that ran to its end writes flags (`RoutineEffect.flags`). -/
theorem flagsChangeOnlyInAluExecute : Obligations.FlagsChangeOnlyInAluExecute := by
  unfold Obligations.FlagsChangeOnlyInAluExecute
  intro s t hi h hne
  rcases step_inv_cases hi h with
    ⟨-, w, -, rfl⟩ | ⟨-, w, -, rfl⟩ | ⟨-, d, -, rfl⟩ | ⟨-, d, -, -, rfl⟩ | ⟨hc, i, u, hcur, ht, hu, rfl⟩
  · exact absurd rfl hne
  · exact absurd rfl hne
  · exact absurd rfl hne
  · exact absurd rfl hne
  · obtain ⟨hop, -⟩ := hu.flags.resolve_left hne
    exact ⟨hc, i, hcur, ht, hop⟩

/-! ## The memory (20_memory.md R35, R39) -/

/-- Every listed word is one some region's backing memory holds. -/
def AllBacked (rs : List Region) (m : Memory) : Prop := ∀ c ∈ m, backed rs (BitVec.ofNat 32 c.1) = true

/-- A write to a backed address keeps every listed word backed. -/
theorem AllBacked.write {rs : List Region} {m : Memory} {a : Word} (hm : AllBacked rs m) (ha : backed rs a = true)
    (v : Word) : AllBacked rs (m.write a.toNat v) := by
  intro c hc
  rcases Memory.mem_write hc with rfl | hc
  · simpa using ha
  · exact hm c hc

/-- A store that ran to its end wrote to a backed address. -/
theorem RoutineEffect.backed_of_isStoreTo {i : Instr} {s u : State} {d : RegCode} {a : Word}
    (h : RoutineEffect i s u) (hi : IsStoreTo i s d a) : backed s.config.regions a = true := by
  rcases hi with ⟨c, r, alu, rfl, rfl⟩ | ⟨c, alu, imm, rfl, rfl⟩
  · obtain ⟨-, -, hb, -⟩ := h; exact hb
  · obtain ⟨-, hb, -⟩ := h; exact hb

/-- A routine keeps the memory's canonical form, and keeps it inside the backing memories. -/
theorem RoutineEffect.keeps_memory {i : Instr} {s u : State} (h : RoutineEffect i s u) (hwf : s.mem.wf = true)
    (hb : AllBacked s.config.regions s.mem) : u.mem.wf = true ∧ AllBacked s.config.regions u.mem := by
  rcases h.memory with ⟨hm, -⟩ | ⟨d, hstore, hm, -⟩ <;> rw [hm]
  · exact ⟨hwf, hb⟩
  · exact ⟨Memory.write_wf _ hwf u.mar.isLt, hb.write (h.backed_of_isStoreTo hstore) _⟩

/-! ## The invariant -/

/-- Settles O39, by the cases of a step: the phases before Execute and a false condition leave parameters, memory and
flags, Decode sets `cur` to what its checks decoded, and a routine keeps the memory's form and `carry` as `overflow`. -/
theorem stepKeepsInvariant : Obligations.StepKeepsInvariant := by
  unfold Obligations.StepKeepsInvariant
  intro s t hi h
  obtain ⟨hconfig, hfault, hselW⟩ := fabricKept_of_step h
  rcases step_inv_cases hi h with
    ⟨-, w, -, rfl⟩ | ⟨-, w, -, rfl⟩ | ⟨-, d, hd, rfl⟩ | ⟨-, d, -, -, rfl⟩ | ⟨-, i, u, -, -, hu, rfl⟩
  · exact { hi with writeback := rfl, current := nofun }
  · exact { hi with writeback := rfl, current := nofun }
  · exact { hi with writeback := rfl, current := fun _ => ⟨d, rfl, hd⟩ }
  · exact { hi with current := nofun }
  · obtain ⟨hwf, hbacked⟩ := hu.keeps_memory hi.memory hi.memoryBacked
    exact {
      config := by rw [hconfig]; exact hi.config
      memory := hwf
      memoryBacked := by rw [hconfig]; exact hbacked
      flagEnable := rfl
      writeback := hselW hi.writeback
      noFault := hfault.trans hi.noFault
      carry := hu.carry hi.carry
      current := nofun }

/-- Settles O40: no word is listed at reset, and `cu` is not Execute. -/
theorem resetMeetsInvariant : Obligations.ResetMeetsInvariant where
  config := by decide
  memory := reset_mem_wf
  memoryBacked := nofun
  flagEnable := rfl
  writeback := rfl
  noFault := rfl
  carry := rfl
  current := nofun

/-! ## Pulses (42_control_unit.md R121, 70_reset_and_hazards.md R177) -/

/-- A run of one more pulse is a step and the run from where it leads. -/
theorem runSteps_succ {k : Nat} {s t : State} (h : runSteps (k + 1) s = .next t) :
    ∃ u, step s = .next u ∧ runSteps k u = .next t := by
  simp only [runSteps, Host.Core.run] at h
  split at h
  · rename_i u hu; exact ⟨u, hu, h⟩
  · cases h
  · cases h

/-- After `k` pulses the control unit has gone on by `k` phases. -/
theorem runSteps_cu {k : Nat} {s t : State} (h : runSteps k s = .next t) : t.cu = Phase.next^[k] s.cu := by
  induction k generalizing s with
  | zero => cases h; rfl
  | succ k ih =>
    obtain ⟨u, hu, h⟩ := runSteps_succ h
    rw [ih h, step_next_cu hu, Function.iterate_succ_apply]

/-- The four phases are a cycle. -/
theorem Phase.next_iterate_four_mul (n : Nat) (p : Phase) : Phase.next^[4 * n] p = p := by
  have hcycle : Phase.next^[4] = id := by funext q; cases q <;> rfl
  rw [Function.iterate_mul, hcycle, Function.iterate_id, id]

/-- From Fetch1, `j` phases beyond any number of whole instructions are `j` phases beyond Fetch1. -/
theorem runSteps_four_mul_add_cu {n j : Nat} {s t : State} (hs : s.cu = .fetch1)
    (h : runSteps (4 * n + j) s = .next t) : t.cu = Phase.next^[j] .fetch1 := by
  rw [runSteps_cu h, hs, Nat.add_comm, Function.iterate_add_apply, Phase.next_iterate_four_mul]

/-- Settles O21, by `runSteps_four_mul_add_cu`. -/
theorem everyInstructionTakesFourPulses : Obligations.EveryInstructionTakesFourPulses := by
  unfold Obligations.EveryInstructionTakesFourPulses
  intro n s t hs
  exact ⟨runSteps_four_mul_add_cu (j := 0) hs, runSteps_four_mul_add_cu (j := 1) hs,
    runSteps_four_mul_add_cu (j := 2) hs, runSteps_four_mul_add_cu (j := 3) hs⟩

end Sys2Proof.Machine
end

section
/-! SUPPORT. The executable container, everything a load can answer, the launch state it leads to, and the file the
assembler produces (70_reset_and_hazards.md R164 to R169, R173). -/

namespace Sys2Proof.Machine

open Sys2Proof

/-! ## The bytes of a list of Words (70_reset_and_hazards.md R164) -/

theorem wordsOfBytes_flatMap (ws : List Word) : wordsOfBytes (ws.flatMap bytesOfWord) = some ws := by
  induction ws with
  | nil => rfl
  | cons w ws ih =>
    simp only [List.flatMap_cons, bytesOfWord, List.cons_append, List.nil_append, wordsOfBytes, wordOfBytes_bytes] at ih ⊢
    rw [ih, Option.map_some]

theorem flatMap_of_wordsOfBytes {bs : List Byte} {ws : List Word} (h : wordsOfBytes bs = some ws) :
    ws.flatMap bytesOfWord = bs := by
  induction bs using wordsOfBytes.induct generalizing ws with
  | case1 => cases h; rfl
  | case2 b0 b1 b2 b3 bs ih =>
    simp only [wordsOfBytes, Option.map_eq_some_iff] at h
    obtain ⟨vs, hvs, rfl⟩ := h
    rw [List.flatMap_cons, bytesOfWord_word, ih hvs]
    rfl
  | case3 bs hnil hfour => rw [wordsOfBytes.eq_3 bs hnil hfour] at h; cases h

theorem length_flatMap_bytesOfWord (ws : List Word) : (ws.flatMap bytesOfWord).length = 4 * ws.length := by
  simp [List.length_flatMap, bytesOfWord, Nat.mul_comm]

/-- Word `k` of the list is the four bytes from `4 * k`. -/
theorem getElem?_flatMap_bytesOfWord {ws : List Word} {k j : Nat} {w : Word} (hw : ws[k]? = some w) (hj : j < 4) :
    (ws.flatMap bytesOfWord)[4 * k + j]? = (bytesOfWord w)[j]? := by
  induction ws generalizing k with
  | nil => simp at hw
  | cons v ws ih =>
    rw [List.flatMap_cons]
    cases k with
    | zero =>
      cases hw
      rw [Nat.mul_zero, Nat.zero_add, List.getElem?_append_left (by exact hj)]
    | succ k =>
      have hlen : (bytesOfWord v).length = 4 := rfl
      rw [List.getElem?_append_right (by omega), hlen, show 4 * (k + 1) + j - 4 = 4 * k + j by omega]
      exact ih hw

/-! ## The container (R164, R166, R173) -/

theorem readContainer_writeContainer {h : Header} {program : List Word} (hp : program.length % 2 = 0) :
    readContainer (writeContainer h program) = .ok (h, program) := by
  rw [readContainer, writeContainer, wordsOfBytes_flatMap]
  simp [hp]

/-- A file that reads is the bytes of its header and program. -/
theorem writeContainer_of_readContainer {file : List Byte} {h : Header} {program : List Word}
    (hr : readContainer file = .ok (h, program)) : writeContainer h program = file := by
  unfold readContainer at hr
  split at hr
  · rename_i hw
    split at hr
    · cases hr; exact flatMap_of_wordsOfBytes hw
    · cases hr
  · cases hr

/-- Settles O50, by the two directions of a list of Words and its bytes, and the bytes of its Word `k`
(`getElem?_flatMap_bytesOfWord`). -/
theorem containerRoundTrip : Obligations.ContainerRoundTrip := by
  unfold Obligations.ContainerRoundTrip
  refine ⟨fun h program hp => readContainer_writeContainer hp,
    fun file h program hr => writeContainer_of_readContainer hr, fun h program => ⟨?_, fun k w hw => ⟨?_, ?_, ?_, ?_⟩⟩⟩
  · rw [writeContainer, length_flatMap_bytesOfWord, List.length_append, Nat.mul_add]
    rfl
  · exact getElem?_flatMap_bytesOfWord (j := 0) hw (by decide)
  · exact getElem?_flatMap_bytesOfWord (j := 1) hw (by decide)
  · exact getElem?_flatMap_bytesOfWord (j := 2) hw (by decide)
  · exact getElem?_flatMap_bytesOfWord (j := 3) hw (by decide)

/-! ## Everything a load can answer (R165, R166, R168) -/

theorem placeProgram_error {ws : List Word} {rs : List Region} {m : Memory} {a : Word} {e : LoadError}
    (h : placeProgram rs m a ws = .error e) : ∃ b, e = .addressFault b := by
  induction ws generalizing m a with
  | nil => cases h
  | cons w ws ih =>
    rw [placeProgram] at h
    split at h
    · cases h; exact ⟨a, rfl⟩
    · exact ih h

/-- A file with another version than the codec's is no launch. -/
theorem load_of_version_ne {p : LoadParams} {file : List Byte} {h : Header} {program : List Word}
    (hr : readContainer file = .ok (h, program)) (hv : h.version ≠ p.codecVersion) :
    load p file = .error .versionMismatch := by
  simp only [load, hr, if_pos hv]

/-- A file with the codec's version: refused regions, a program Word no backing word holds, or the launch state with the
program placed. -/
theorem load_cases {p : LoadParams} {file : List Byte} {h : Header} {program : List Word}
    (hr : readContainer file = .ok (h, program)) (hv : h.version = p.codecVersion) :
    (regionsWf h.regions = false ∧ load p file = .error .refusedRegions) ∨
    (∃ a, load p file = .error (.addressFault a)) ∨
    (∃ m, regionsWf h.regions = true ∧
      placeProgram h.regions p.init.mem (p.loadBase.getD h.ramFirst) program = .ok m ∧
      load p file = .ok
        { State.launch { p.config with regions := h.regions } (p.entryPoint.getD h.entry) p.init with mem := m }) := by
  simp only [load, hr, hv, ne_eq, not_true_eq_false, if_false]
  cases hw : regionsWf h.regions with
  | false => exact .inl ⟨rfl, rfl⟩
  | true =>
    cases hm : placeProgram h.regions p.init.mem (p.loadBase.getD h.ramFirst) program with
    | error e => obtain ⟨a, rfl⟩ := placeProgram_error hm; exact .inr (.inl ⟨a, rfl⟩)
    | ok m => exact .inr (.inr ⟨m, rfl, rfl, rfl⟩)

/-- What a load that succeeds found in the file, and the state it built. -/
theorem load_ok {p : LoadParams} {file : List Byte} {s : State} (hl : load p file = .ok s) :
    ∃ h program m, readContainer file = .ok (h, program) ∧ h.version = p.codecVersion ∧ regionsWf h.regions = true ∧
      placeProgram h.regions p.init.mem (p.loadBase.getD h.ramFirst) program = .ok m ∧
      s = { State.launch { p.config with regions := h.regions } (p.entryPoint.getD h.entry) p.init with mem := m } := by
  cases hr : readContainer file with
  | error e => simp [load, hr] at hl
  | ok c =>
    obtain ⟨h, program⟩ := c
    by_cases hv : h.version = p.codecVersion
    · rcases load_cases hr hv with ⟨-, he⟩ | ⟨a, he⟩ | ⟨m, hw, hm, hs⟩
      · rw [he] at hl; cases hl
      · rw [he] at hl; cases hl
      · rw [hs] at hl; cases hl; exact ⟨h, program, m, rfl, hv, hw, hm, rfl⟩
    · rw [load_of_version_ne hr hv] at hl; cases hl

/-- Settles O52: the container reads back, and the version is checked first. -/
theorem versionMismatchStopsTheLoad : Obligations.VersionMismatchStopsTheLoad := by
  unfold Obligations.VersionMismatchStopsTheLoad
  exact fun p h program hp hv => load_of_version_ne (readContainer_writeContainer hp) hv

/-- Settles O51: the state is the launch state by `load_ok`, and `placeProgram_ok` says what its memory holds. -/
theorem loadGivesTheLaunchState : Obligations.LoadGivesTheLaunchState := by
  unfold Obligations.LoadGivesTheLaunchState
  intro p file s hl
  obtain ⟨h, program, m, hr, hv, hw, hm, rfl⟩ := load_ok hl
  obtain ⟨-, -, hother, hprogram⟩ := placeProgram_ok hm
  refine ⟨h, program, hr, hv, rfl, hw, rfl, rfl, rfl, rfl, rfl, rfl, rfl, rfl, rfl, rfl, rfl, rfl, rfl, rfl, rfl,
    fun hlen i hi => ?_, hother⟩
  exact (memRead_ok_iff _ _ _).2 (hprogram hlen i hi)

/-! ## The launch state and the invariant -/

theorem Config.wf_withRegions {k : Config} {rs : List Region} (hk : k.wf = true) (hrs : regionsWf rs = true) :
    Config.wf { k with regions := rs } = true := by
  obtain ⟨hops, hconds, hregs, hmin, hmax, hextra, hdisjoint, -⟩ := (Config.wf_iff k).1 hk
  exact (Config.wf_iff _).2 ⟨hops, hconds, hregs, hmin, hmax, hextra, hdisjoint, hrs⟩

/-- Settles O41: the header's regions passed their check, and placing the program keeps the memory's form and lists only
backed words besides those of `INIT_STATE` (`placeProgram_ok`). -/
theorem launchMeetsInvariant : Obligations.LaunchMeetsInvariant := by
  unfold Obligations.LaunchMeetsInvariant
  intro p file s hk hmem hcarry hbacked hl
  obtain ⟨h, program, m, -, -, hw, hm, rfl⟩ := load_ok hl
  obtain ⟨hwf, hlisted, -, -⟩ := placeProgram_ok hm
  exact {
    config := Config.wf_withRegions hk hw
    memory := hwf hmem
    memoryBacked := fun c hc => (hlisted c hc).elim (hbacked c) id
    flagEnable := rfl
    writeback := rfl
    noFault := rfl
    carry := hcarry
    current := nofun }

/-! ## The assembler's file (R165, 30_encoding.md R82) -/

/-- Settles O55: the assembled Words are an even number, so the file reads back with the version in its header, and of the
failures of `load_cases` neither is VersionMismatch or MalformedExecutable. -/
theorem assembledFilesCarryTheCodecVersion : Obligations.AssembledFilesCarryTheCodecVersion := by
  unfold Obligations.AssembledFilesCarryTheCodecVersion
  intro k version f source
  refine ⟨fun ws hws => ?_, fun line problem he => assembleFile_encodingError he⟩
  have hread := readContainer_writeContainer (h := assemblerHeader version f) (assemble_even hws)
  refine ⟨_, assembleFile_words hws, rfl, hread, fun p hp => ?_⟩
  rcases load_cases hread hp.symm with ⟨-, hl⟩ | ⟨a, hl⟩ | ⟨m, -, -, hl⟩ <;> rw [hl] <;> exact ⟨nofun, nofun⟩

end Sys2Proof.Machine
end
